-- ==== Sys2Proof/Word.lean ====
section
/-! DEFINITION. The machine's word and byte and the two views of a word (00_scope.md R7, R8). -/

namespace Sys2Proof

/-- A Word: 32 bits, read as a signed two's-complement value or as its bit pattern (R7). -/
abbrev Word := BitVec 32

/-- A byte of memory: 8 bits (R21, R22, R30). -/
abbrev Byte := BitVec 8

/-- The bit pattern of a Word as an unsigned integer (R7, `toU32`). -/
def toU32 (w : Word) : Nat := w.toNat

/-- The signed value of a Word, an integer from -2^31 to 2^31 - 1 (R7). -/
def signed (w : Word) : Int := w.toInt

/-- The Word with the same low 32 bits as the integer `z` (R7, `wrap32`). -/
def wrap32 (z : Int) : Word := BitVec.ofInt 32 z

/-- Whether the integer `z` is the signed value of some Word (R7). -/
def fitsWord (z : Int) : Bool := decide (-2 ^ 31 ≤ z ∧ z ≤ 2 ^ 31 - 1)

end Sys2Proof
end

