-- ==== Sys2Proof/Syntax.lean ====
section
/-! DEFINITION. The instructions: one constructor per row of spec/opcode_table.json (30_encoding.md R51, R52). -/

namespace Sys2Proof

/-- A register-operand field, 4 bits, values 0 to 15; 0 to 7 are the valid operands (R48, R54). -/
abbrev RegField := BitVec 4

/-- The immediate/address field `dir`, 16 bits, unsigned (R48, R53). -/
abbrev Dir := BitVec 16

/-- An instruction, holding exactly the fields its operand form uses (R51): the fields a form ignores have no effect,
so they are no part of the instruction. -/
inductive Instr where
  | nop
  | add (rn rm : RegField)
  | sub (rn rm : RegField)
  | and (rn rm : RegField)
  | or (rn rm : RegField)
  | xor (rn rm : RegField)
  | not (rn : RegField)
  | mov (rn rm : RegField)
  | ldr (rn : RegField) (dir : Dir)
  | str (rn : RegField) (dir : Dir)
  | jmp (dir : Dir)
  | jz (dir : Dir)
  | jn (dir : Dir)
  | inp (rn : RegField)
  | out (rn : RegField)
  | halt
deriving DecidableEq, Repr

/-- The five operand forms (R51). -/
inductive Form where
  | z | rr | r | rd | d
deriving DecidableEq, Repr

/-- The operand form of an instruction (R51). -/
def Instr.form : Instr → Form
  | .nop => .z
  | .add _ _ => .rr
  | .sub _ _ => .rr
  | .and _ _ => .rr
  | .or _ _ => .rr
  | .xor _ _ => .rr
  | .not _ => .r
  | .mov _ _ => .rr
  | .ldr _ _ => .rd
  | .str _ _ => .rd
  | .jmp _ => .d
  | .jz _ => .d
  | .jn _ => .d
  | .inp _ => .r
  | .out _ => .r
  | .halt => .z

end Sys2Proof
end

