-- ==== Sys2Proof/WellFormed.lean ====
section
/-! DEFINITION. Which instructions name only registers that exist (30_encoding.md R54). The machine does not consult this
check: an ill-formed instruction decodes and runs, and its handler raises InvalidOperand (R49, R54, R56). -/

namespace Sys2Proof

/-- A register field names a register: "indices 0..7 are the only valid register operands" (R54). -/
def RegField.valid (r : RegField) : Bool := decide (r.toNat < 8)

/-- Every register field the instruction uses names a register (R51, R54). -/
def Instr.wellFormed : Instr → Bool
  | .nop => true
  | .add rn rm => RegField.valid rn && RegField.valid rm
  | .sub rn rm => RegField.valid rn && RegField.valid rm
  | .and rn rm => RegField.valid rn && RegField.valid rm
  | .or rn rm => RegField.valid rn && RegField.valid rm
  | .xor rn rm => RegField.valid rn && RegField.valid rm
  | .not rn => RegField.valid rn
  | .mov rn rm => RegField.valid rn && RegField.valid rm
  | .ldr rn _ => RegField.valid rn
  | .str rn _ => RegField.valid rn
  | .jmp _ => true
  | .jz _ => true
  | .jn _ => true
  | .inp rn => RegField.valid rn
  | .out rn => RegField.valid rn
  | .halt => true

end Sys2Proof
end

