-- ==== Sys2Proof/Decode.lean ====
section
/-! DEFINITION. The byte order of a word, the decoder and the encoder (30_encoding.md R47 to R58, 20_memory.md R35). -/

namespace Sys2Proof

/-! ## Byte order (R32, R33, R35) -/

/-- The Word whose bits 7 to 0 are `b0`, the byte at the lowest address, and so on up to bits 31 to 24 (R32, R35). -/
def wordOfBytes (b0 b1 b2 b3 : Byte) : Word := b3 ++ b2 ++ b1 ++ b0

/-- Byte `k` of a Word, for `k` from 0 to 3: bits `8 * k + 7` to `8 * k` (R33). -/
def byteOfWord (w : Word) (k : Nat) : Byte := w.extractLsb' (8 * k) 8

/-! ## Fields (R48, R49) -/

/-- The decoded 4-tuple of a Word (R49). -/
structure Fields where
  op : BitVec 4
  rn : RegField
  rm : RegField
  dir : Dir
deriving DecidableEq, Repr

/-- The decoder of R49: pure and total; it takes bits 31-28, 27-24, 23-20 and 15-0, and never looks at bits 19-16 (R50). -/
def decodeFields (w : Word) : Fields where
  op := w.extractLsb' 28 4
  rn := w.extractLsb' 24 4
  rm := w.extractLsb' 20 4
  dir := w.extractLsb' 0 16

/-- The canonical word of four fields, zeros in bits 19-16 (R57). -/
def encodeFields (f : Fields) : Word := f.op ++ f.rn ++ f.rm ++ 0#4 ++ f.dir

/-! ## Opcode map (R52, R65) -/

/-- Why bytes are no instruction. -/
inductive DecodeError where
  /-- The opcode is outside 0 to 15: the default arm of the dispatch, unreachable from a Word (R55, R65). -/
  | unknownOpcode (op : Nat)
  /-- Fewer than the four bytes of an instruction (R47). -/
  | truncated
deriving DecidableEq, Repr

/-- The instruction an opcode selects, with the fields its form uses (R51, R52, R65). It is total on any integer; the last
arm is the default arm of R65. -/
def selectInstr (op : Nat) (rn rm : RegField) (dir : Dir) : Except DecodeError Instr :=
  match op with
  | 0 => .ok .nop
  | 1 => .ok (.add rn rm)
  | 2 => .ok (.sub rn rm)
  | 3 => .ok (.and rn rm)
  | 4 => .ok (.or rn rm)
  | 5 => .ok (.xor rn rm)
  | 6 => .ok (.not rn)
  | 7 => .ok (.mov rn rm)
  | 8 => .ok (.ldr rn dir)
  | 9 => .ok (.str rn dir)
  | 10 => .ok (.jmp dir)
  | 11 => .ok (.jz dir)
  | 12 => .ok (.jn dir)
  | 13 => .ok (.inp rn)
  | 14 => .ok (.out rn)
  | 15 => .ok .halt
  | op => .error (.unknownOpcode op)

/-- The instruction of a Word (R49, R52). -/
def decode (w : Word) : Except DecodeError Instr :=
  selectInstr (decodeFields w).op.toNat (decodeFields w).rn (decodeFields w).rm (decodeFields w).dir

/-- The first instruction of a list of bytes, lowest address first, and the bytes after it: always 4 bytes (R47, R58, R61). -/
def decodeBytes : List Byte → Except DecodeError (Instr × List Byte)
  | b0 :: b1 :: b2 :: b3 :: rest =>
    match decode (wordOfBytes b0 b1 b2 b3) with
    | .ok i => .ok (i, rest)
    | .error e => .error e
  | _ => .error .truncated

/-! ## The encoder (R57) -/

/-- The opcode of an instruction (R52). -/
def Instr.opcode : Instr → BitVec 4
  | .nop => 0x0
  | .add _ _ => 0x1
  | .sub _ _ => 0x2
  | .and _ _ => 0x3
  | .or _ _ => 0x4
  | .xor _ _ => 0x5
  | .not _ => 0x6
  | .mov _ _ => 0x7
  | .ldr _ _ => 0x8
  | .str _ _ => 0x9
  | .jmp _ => 0xA
  | .jz _ => 0xB
  | .jn _ => 0xC
  | .inp _ => 0xD
  | .out _ => 0xE
  | .halt => 0xF

/-- The `rn` field of the canonical word: zero where the form does not use it (R51, R57). -/
def Instr.rnField : Instr → RegField
  | .nop => 0
  | .add rn _ => rn
  | .sub rn _ => rn
  | .and rn _ => rn
  | .or rn _ => rn
  | .xor rn _ => rn
  | .not rn => rn
  | .mov rn _ => rn
  | .ldr rn _ => rn
  | .str rn _ => rn
  | .jmp _ => 0
  | .jz _ => 0
  | .jn _ => 0
  | .inp rn => rn
  | .out rn => rn
  | .halt => 0

/-- The `rm` field of the canonical word: zero where the form does not use it (R51, R57). -/
def Instr.rmField : Instr → RegField
  | .nop => 0
  | .add _ rm => rm
  | .sub _ rm => rm
  | .and _ rm => rm
  | .or _ rm => rm
  | .xor _ rm => rm
  | .not _ => 0
  | .mov _ rm => rm
  | .ldr _ _ => 0
  | .str _ _ => 0
  | .jmp _ => 0
  | .jz _ => 0
  | .jn _ => 0
  | .inp _ => 0
  | .out _ => 0
  | .halt => 0

/-- The `dir` field of the canonical word: zero where the form does not use it (R51, R57). -/
def Instr.dirField : Instr → Dir
  | .nop => 0
  | .add _ _ => 0
  | .sub _ _ => 0
  | .and _ _ => 0
  | .or _ _ => 0
  | .xor _ _ => 0
  | .not _ => 0
  | .mov _ _ => 0
  | .ldr _ dir => dir
  | .str _ dir => dir
  | .jmp dir => dir
  | .jz dir => dir
  | .jn dir => dir
  | .inp _ => 0
  | .out _ => 0
  | .halt => 0

/-- The canonical word of an instruction (R57). -/
def encode (i : Instr) : Word :=
  encodeFields { op := i.opcode, rn := i.rnField, rm := i.rmField, dir := i.dirField }

/-- The bits of its word that an instruction of each form uses: the opcode and the fields of R51. -/
def Form.usedBits : Form → Word
  | .z => 0xF0000000
  | .rr => 0xFFF00000
  | .r => 0xFF000000
  | .rd => 0xFF00FFFF
  | .d => 0xF000FFFF

/-! ## The opcode table's numbering -/

/-- The Word whose bits `nbits - 1` to 0 are those of `w` and whose other bits are 0. -/
def tableWord (nbits w : Nat) : Word := BitVec.ofNat 32 (w % 2 ^ nbits)

/-- The four bytes of a Word as memory holds them, lowest address first (R35, R58). -/
def bytesOfWord (w : Word) : List Byte := [byteOfWord w 0, byteOfWord w 1, byteOfWord w 2, byteOfWord w 3]

/-- What the decoder reads from the bytes of a word numbered as spec/opcode_table.json numbers its bits. -/
def decodeTableWord (nbits w : Nat) : Option Instr :=
  match decodeBytes (bytesOfWord (tableWord nbits w)) with
  | .ok (i, _) => some i
  | .error _ => none

end Sys2Proof
end

