-- ==== Sys2Proof/Config.lean ====
section
/-! DEFINITION. What the spec makes a parameter of the machine: the capacities (00_scope.md R6, 92 D2) and the named
parameters of 93_implementation_defined.md U2, U3, U11, each with the spec's default. -/

namespace Sys2Proof

/-- What ADD and SUB do with an exact result that fits no Word (93 U2): `wrap` is the spec's rule (R80). -/
inductive ArithOverflow where
  | wrap
  | fault
deriving DecidableEq, Repr

/-- The parameters of a machine. -/
structure Config where
  /-- `CODE_CAP`, the capacity of code memory in bytes (R6). -/
  codeCap : Nat
  /-- `DATA_CAP`, the capacity of data memory in bytes (R6). -/
  dataCap : Nat
  /-- `ARITH_OVERFLOW` (93 U2). -/
  arithOverflow : ArithOverflow
  /-- `MOVE_WRITES_LAST`: whether MOV, LDR and IN also write `last` (93 U3). -/
  moveWritesLast : Bool
  /-- `DATA_INIT`: the bytes of data memory that differ from 0 at reset (93 U11). -/
  dataInit : List Host.Cell
  /-- `CODE_TAIL_INIT`: the bytes of code memory that differ from 0 before a program is loaded (93 U11). -/
  codeTailInit : List Host.Cell
deriving DecidableEq, Repr

/-- The largest capacity: 2^31 - 1 (R6, D2). -/
def Config.maxCap : Nat := 2 ^ 31 - 1

/-- The reference configuration: 32 bytes of each memory (R6) and the spec's default for every other parameter. -/
def Config.reference : Config where
  codeCap := 32
  dataCap := 32
  arithOverflow := .wrap
  moveWritesLast := false
  dataInit := []
  codeTailInit := []

end Sys2Proof
end

