-- ==== Sys2Proof/Machine/Params.lean ====
section
/-! DEFINITION. The configuration this model runs with. -/

namespace Sys2Proof.Machine

/-- The parameters of the machine modelled: the spec's defaults (R6, D2, U2, U3, U11). -/
def params : Config := Config.reference

end Sys2Proof.Machine
end

