-- ==== Sys2Proof/Machine/State.lean ====
section
/-! DEFINITION. The state of the machine (10_state.md R13 to R26), its value at reset (70_reset_and_hazards.md R113), and
the reasons a step of the model can stop. -/

namespace Sys2Proof.Machine

/-- The fault kinds (60_exceptions.md R97). `capacityExceeded` is the loader's and never stands in a status (R102);
`unknownOpcode` is raised by the unreachable default arm alone (R101). -/
inductive FaultKind where
  | outOfBounds
  | invalidOperand
  | capacityExceeded
  | malformedInput
  | unknownOpcode
deriving DecidableEq, Repr

/-- The name of a failing operation: a mnemonic, FETCH or UNKNOWN; NOP and HALT never fail (R103). -/
inductive OpName where
  | fetch | unknown
  | add | sub | and | or | xor | not
  | mov | ldr | str
  | jmp | jz | jn
  | inp | out
deriving DecidableEq, Repr

/-- The state of the control unit's cycle state machine (R18, R62). -/
inductive Status where
  | running
  | halted
  | faulted (kind : FaultKind) (op : OpName)
deriving DecidableEq, Repr

/-- One item of the input stream (R23). -/
inductive InItem where
  | value (v : Word)
  | malformed
deriving DecidableEq, Repr

/-- One memory: `cap` bytes, addressed from 0 (R30). `cells` lists the bytes that differ from what an unlisted address
reads as, by strictly rising address. -/
structure Memory where
  cap : Nat
  cells : List Host.Cell
deriving DecidableEq, Repr

/-- The two disjoint address spaces (R30). -/
inductive Space where
  | code
  | data
deriving DecidableEq, Repr

/-- The whole state of the machine; "Nothing else is state" (10_state.md). -/
structure State where
  /-- The registers `x[0]` to `x[7]` (R13). -/
  regs : Vector Word 8
  /-- The program counter, a byte address into CODE (R15, D3). -/
  pc : Nat
  /-- The last-ALU-result (R16). -/
  last : Word
  /-- The halted flag (R17). -/
  halted : Bool
  /-- The control unit's state (R18). -/
  status : Status
  /-- The last fetched word (R19). -/
  mbr : Word
  /-- CODE, with its capacity (R21). -/
  code : Memory
  /-- DATA, with its capacity (R22). -/
  data : Memory
  /-- The items of the input stream not yet taken, the next one first (R23). -/
  input : List InItem
  /-- The records of the output stream, the oldest first (R24). -/
  output : List Word
deriving DecidableEq, Repr

/-- Why a step of the model has no next state. A fault of the MACHINE is not one of these: it is a next state whose status
is `faulted` (R104). -/
inductive Fault where
  /-- `step` on a Halted machine: it has no step (R67). Safe. -/
  | terminalHalted
  /-- `step` on a Faulted machine: it has no step (R67). Safe. -/
  | terminalFaulted (kind : FaultKind) (op : OpName)
  /-- IN with a valid register when the finite input is exhausted: stuck, not final (R96, D12, U8). Safe. -/
  | inputExhausted
  /-- The model-only fault of ADD and SUB under `ARITH_OVERFLOW = fault` (93 U2); `params` selects `wrap`, under which
  nothing raises it. Safe. -/
  | arithOverflow (op : OpName)
deriving DecidableEq, Repr

/-- Why the model has no meaning for an instruction. -/
inductive Refusal where
  /-- An arm of `exec` whose instruction has no meaning yet; no arm raises it any more. Safe. -/
  | notModelled (mnemonic : String)
deriving DecidableEq, Repr

/-- The answer of a meaning or a step. -/
abbrev Answer := Host.Outcome State Fault Refusal

/-- The reset state of a machine with the given parameters and input items (R113). -/
def State.resetWith (cfg : Config) (items : List InItem) : State where
  regs := Vector.replicate 8 0
  pc := 0
  last := 0
  halted := false
  status := .running
  mbr := 0
  code := { cap := cfg.codeCap, cells := cfg.codeTailInit }
  data := { cap := cfg.dataCap, cells := cfg.dataInit }
  input := items
  output := []

/-- The machine right after reset (R113), in the reference configuration, with no program loaded and no input item given
(DESIGN CHOICE: the environment gives the items; log entry 5). -/
def State.reset : State := State.resetWith params []

end Sys2Proof.Machine
end

