-- ==== Sys2Proof/Machine/Ops.lean ====
section
/-! DEFINITION. The named operations over memory, registers and streams, and raising a fault (00_scope.md R9). -/

namespace Sys2Proof.Machine

/-! ## Bytes of a memory -/

/-- What an unlisted address of a memory reads as: every byte of CODE and DATA is 0 at reset (R113, D10; log entry 4). -/
def unlistedByte : Byte := 0

/-- The byte listed for an address, or what an unlisted address reads as. -/
def cellsGet : List Host.Cell → Nat → Byte
  | [], _ => unlistedByte
  | (b, v) :: cs, a => if b = a then v else cellsGet cs a

/-- The list without its entries for an address. -/
def cellsErase : List Host.Cell → Nat → List Host.Cell
  | [], _ => []
  | (b, v) :: cs, a => if b = a then cellsErase cs a else (b, v) :: cellsErase cs a

/-- The list with an entry put before the first entry of a greater address. -/
def cellsInsert : List Host.Cell → Nat → Byte → List Host.Cell
  | [], a, v => [(a, v)]
  | (b, w) :: cs, a, v => if a < b then (a, v) :: (b, w) :: cs else (b, w) :: cellsInsert cs a v

/-- The list with the byte of one address replaced; the value an unlisted address reads as is not listed. -/
def cellsSet (cs : List Host.Cell) (a : Nat) (v : Byte) : List Host.Cell :=
  if v = unlistedByte then cellsErase cs a else cellsInsert (cellsErase cs a) a v

/-- The canonical form of a list of cells, all of whose addresses are at least `lo`: addresses rise strictly, lie below the
capacity, and no entry equals what an unlisted address reads as. -/
def cellsWf (lo cap : Nat) : List Host.Cell → Bool
  | [] => true
  | (b, v) :: cs => decide (lo ≤ b) && decide (b < cap) && decide (v ≠ unlistedByte) && cellsWf (b + 1) cap cs

/-- The memory's cells are in the canonical form and lie inside its address space (R30). -/
def Memory.wf (m : Memory) : Bool := cellsWf 0 m.cap m.cells

/-- The byte at an address. -/
def Memory.byte (m : Memory) (a : Nat) : Byte := cellsGet m.cells a

/-- The memory with one byte replaced. -/
def Memory.setByte (m : Memory) (a : Nat) (v : Byte) : Memory := { m with cells := cellsSet m.cells a v }

/-! ## The word access (20_memory.md R31 to R33) -/

/-- The bound rule (R31), on any integer address (R41): `0 <= a` and `a + 4 <= CAP`. -/
def Memory.inBounds (m : Memory) (a : Int) : Bool := decide (0 ≤ a ∧ a + 4 ≤ (m.cap : Int))

/-- The Word of the four bytes from `a` on, least significant first (R32). -/
def Memory.word (m : Memory) (a : Nat) : Word :=
  wordOfBytes (m.byte a) (m.byte (a + 1)) (m.byte (a + 2)) (m.byte (a + 3))

/-- The memory with the four little-endian bytes of a Word stored from `a` on (R33). -/
def Memory.setWord (m : Memory) (a : Nat) (v : Word) : Memory :=
  (((m.setByte a (byteOfWord v 0)).setByte (a + 1) (byteOfWord v 1)).setByte (a + 2) (byteOfWord v 2)).setByte
    (a + 3) (byteOfWord v 3)

/-- `read_word`: the Word at `a`, or OutOfBounds (R32). -/
def Memory.readWord (m : Memory) (a : Int) : Except FaultKind Word :=
  if m.inBounds a then .ok (m.word a.toNat) else .error .outOfBounds

/-- `write_word`: the memory with `v` stored at `a`, or OutOfBounds and nothing stored (R33, R38). -/
def Memory.writeWord (m : Memory) (a : Int) (v : Word) : Except FaultKind Memory :=
  if m.inBounds a then .ok (m.setWord a.toNat v) else .error .outOfBounds

/-- The memory of an address space (R30). -/
def State.mem (s : State) : Space → Memory
  | .code => s.code
  | .data => s.data

/-- The state with the memory of an address space replaced. -/
def State.setMem (s : State) (sp : Space) (m : Memory) : State :=
  match sp with
  | .code => { s with code := m }
  | .data => { s with data := m }

/-- `MemRead(space, a, 4)` (R32). -/
def State.memRead (s : State) (sp : Space) (a : Int) : Except FaultKind Word := (s.mem sp).readWord a

/-- `MemWrite(space, a, 4, v)` (R33). -/
def State.memWrite (s : State) (sp : Space) (a : Int) (v : Word) : Except FaultKind State :=
  match (s.mem sp).writeWord a v with
  | .ok m => .ok (s.setMem sp m)
  | .error k => .error k

/-! ## Registers (10_state.md R13) -/

/-- `x[n]`. -/
def State.reg (s : State) (n : Fin 8) : Word := s.regs[n]

/-- `x[n] <- v`. -/
def State.setReg (s : State) (n : Fin 8) (v : Word) : State := { s with regs := s.regs.set n v }

/-! ## Streams (R23, R24) -/

/-- An integer token as the core sees it: out of the range of a Word it is malformed (R23, D11). -/
def InItem.ofInteger (z : Int) : InItem := if fitsWord z then .value (wrap32 z) else .malformed

/-- A token as the core sees it, given the integer it spells, if any (R23). -/
def InItem.ofToken : Option Int → InItem
  | some z => InItem.ofInteger z
  | none => .malformed

/-- `InPop()`: the next item and the state without it; nothing when the stream has no item (R23). -/
def State.inPop (s : State) : Option (InItem × State) :=
  match s.input with
  | [] => none
  | item :: rest => some (item, { s with input := rest })

/-- `OutPush(v)` (R24). -/
def State.outPush (s : State) (v : Word) : State := { s with output := s.output ++ [v] }

/-- The environment delivers further items at the end of the input stream (R23, R96). -/
def State.deliver (s : State) (items : List InItem) : State := { s with input := s.input ++ items }

/-! ## Faults and reset (60_exceptions.md R104, R107) -/

/-- `raise Fault(kind, op)`: the status becomes Faulted and nothing else is written (R104). -/
def State.raiseFault (s : State) (kind : FaultKind) (op : OpName) : State :=
  { s with status := .faulted kind op }

/-- The host's reset, the only way out of a terminal state (R107, R114): every element takes its reset value; the capacities,
which are the machine's own, stay, and the environment gives the items of the new run. -/
def hostReset (s : State) (items : List InItem) : State :=
  State.resetWith { params with codeCap := s.code.cap, dataCap := s.data.cap } items

end Sys2Proof.Machine
end

