-- ==== Sys2Proof/Machine/Operands.lean ====
section
/-! DEFINITION. The operand forms (30_encoding.md R51, R53, R54), each with the checks its handlers make before their first
write, in the order of 60_exceptions.md R105. -/

namespace Sys2Proof.Machine

/-- The answer that ends the step with the fault transition (R71, R104): a next state. -/
def failWith (kind : FaultKind) (op : OpName) (s : State) : Answer := .next (s.raiseFault kind op)

/-- Go on with what a check or an access gave, or raise its fault under the name `op`. -/
def orFail {α : Type} (op : OpName) (r : Except FaultKind α) (s : State) (k : α → Answer) : Answer :=
  match r with
  | .ok x => k x
  | .error kind => failWith kind op s

/-- The register a field names; 8 to 15 is an invalid operand (R54, R99). -/
def regOperand (r : RegField) : Except FaultKind (Fin 8) :=
  if h : r.toNat < 8 then .ok ⟨r.toNat, h⟩ else .error .invalidOperand

/-- The data address of LDR and STR: `dir`, zero-extended (R53, R85). -/
def dataAddr (dir : Dir) : Int := (dir.toNat : Int)

/-- The target of a jump, checked against the capacity of CODE whatever the condition (R86, D8). -/
def jumpTarget (s : State) (dir : Dir) : Except FaultKind Nat :=
  if s.code.inBounds (dir.toNat : Int) then .ok dir.toNat else .error .outOfBounds

/-- Form R: one register (R51). -/
def formR (op : OpName) (rn : RegField) (s : State) (k : Fin 8 → Answer) : Answer :=
  orFail op (regOperand rn) s k

/-- Form RR: two registers, both valid before anything is done (R51, R73). -/
def formRR (op : OpName) (rn rm : RegField) (s : State) (k : Fin 8 → Fin 8 → Answer) : Answer :=
  formR op rn s fun n => formR op rm s fun m => k n m

/-- Form D: a jump target (R51, R86). -/
def formD (op : OpName) (dir : Dir) (s : State) (k : Nat → Answer) : Answer :=
  orFail op (jumpTarget s dir) s k

end Sys2Proof.Machine
end

