-- ==== Sys2Proof/Machine/Cycle.lean ====
section
/-! DEFINITION. The instruction cycle (40_control_unit_cycle.md R62 to R72), over any handler `run`. -/

namespace Sys2Proof.Machine

/-- Fetch (R63 step 1): the word at `pc` in CODE, and the state with `mbr` holding it; a failed fetch writes nothing (R70). -/
def fetch (s : State) : Except FaultKind (Word × State) :=
  match s.memRead .code (s.pc : Int) with
  | .ok w => .ok (w, { s with mbr := w })
  | .error k => .error k

/-- Advance (R63 step 2, R64): unconditionally, before the dispatch. -/
def advance (s : State) : State := { s with pc := s.pc + 4 }

/-- The state inside a step, where the handler runs: `mbr` holds the word at `pc` and `pc` is advanced (R10, R63). A machine
that waits in IN stays here (R96). -/
def insideStep (s : State) : State := advance { s with mbr := s.code.word s.pc }

/-- The halt test (R63 step 5, R66): reached only when the handler raised nothing, so with status still Running. -/
def haltTest (s : State) : State :=
  if s.status = .running ∧ s.halted = true then { s with status := .halted } else s

/-- The halt test after a handler's answer. -/
def afterHandler : Answer → Answer
  | .next s => .next (haltTest s)
  | .fault r => .fault r
  | .refused r => .refused r

/-- Decode and dispatch (R63 steps 3 and 4): the default arm raises UnknownOpcode (R65); no Word reaches it (R55). -/
def dispatch (run : Instr → State → Answer) (w : Word) (s : State) : Answer :=
  match decode w with
  | .ok i => run i s
  | .error _ => failWith .unknownOpcode .unknown s

/-- Why a machine of this status has no step: Halted and Faulted are terminal (R67). -/
def terminalReason : Status → Option Fault
  | .running => none
  | .halted => some .terminalHalted
  | .faulted k op => some (.terminalFaulted k op)

/-- One whole cycle (R63). -/
def cycle (run : Instr → State → Answer) (s : State) : Answer :=
  match terminalReason s.status with
  | some r => .fault r
  | none =>
    match fetch s with
    | .error k => failWith k .fetch s
    | .ok (w, t) => afterHandler (dispatch run w (advance t))

/-- The state with a word stored in CODE at `pc`, where the next fetch reads it; unchanged when `pc` is out of bounds, since
no such fetch exists (R31, R70). It stands for the host's load (R116). -/
def placeAtPc (s : State) (w : Word) : State :=
  match s.memWrite .code (s.pc : Int) w with
  | .ok t => t
  | .error _ => s

end Sys2Proof.Machine
end

