-- ==== Sys2Proof/Machine/Flags.lean ====
section
/-! DEFINITION. The condition state `last` (10_state.md R16): who writes it and how it is tested; the results of ADD and SUB
(41_arithmetic_logic.md R80). -/

namespace Sys2Proof.Machine

/-- `last <- v` (R16). -/
def State.setLast (s : State) (v : Word) : State := { s with last := v }

/-- The condition of JZ: `last == 0` (R16, R88). -/
def State.lastIsZero (s : State) : Bool := decide (s.last = 0)

/-- The condition of JN: `last < 0` as a signed value (R16, R89). -/
def State.lastIsNegative (s : State) : Bool := decide (signed s.last < 0)

/-- An ALU result goes to `x[n]` and to `last` together (R73). -/
def State.writeResult (s : State) (n : Fin 8) (v : Word) : State := (s.setReg n v).setLast v

/-- What MOV, LDR and IN write to `last` beside their register: nothing, unless `MOVE_WRITES_LAST` (R82, D6, U3). -/
def State.noteMoved (s : State) (v : Word) : State := if params.moveWritesLast then s.setLast v else s

/-- The value MOV, LDR or IN puts in `x[n]` (R82, R83, R91). -/
def State.writeMoved (s : State) (n : Fin 8) (v : Word) : State := (s.setReg n v).noteMoved v

/-- The result of an exact sum or difference: its low 32 bits (R80); under `ARITH_OVERFLOW = fault` none when it fits no
Word (U2). -/
def arithResult (o : ArithOverflow) (z : Int) : Option Word :=
  match o with
  | .wrap => some (wrap32 z)
  | .fault => if fitsWord z then some (wrap32 z) else none

end Sys2Proof.Machine
end

