-- ==== Sys2Proof/Machine/Alu.lean ====
section
/-! DEFINITION. ADD, SUB, AND, OR, XOR, NOT (41_arithmetic_logic.md R73 to R81). -/

namespace Sys2Proof.Machine

/-- A sum or difference of the signed operands, written to `x[rn]` and `last` (R73, R80); both operands are read before the
write (R81). -/
def aluExact (op : OpName) (f : Int → Int → Int) (rn rm : RegField) (s : State) : Answer :=
  formRR op rn rm s fun n m =>
    match arithResult params.arithOverflow (f (signed (s.reg n)) (signed (s.reg m))) with
    | some v => .next (s.writeResult n v)
    | none => .fault (.arithOverflow op)

/-- A bitwise operation on the patterns, written to `x[rn]` and `last` (R73, R80, R81). -/
def aluBitwise (op : OpName) (f : Word → Word → Word) (rn rm : RegField) (s : State) : Answer :=
  formRR op rn rm s fun n m => .next (s.writeResult n (f (s.reg n) (s.reg m)))

/-- ADD (R74). -/
def execAdd (rn rm : RegField) (s : State) : Answer := aluExact .add (fun a b => a + b) rn rm s

/-- SUB (R75). -/
def execSub (rn rm : RegField) (s : State) : Answer := aluExact .sub (fun a b => a - b) rn rm s

/-- AND (R76). -/
def execAnd (rn rm : RegField) (s : State) : Answer := aluBitwise .and (fun a b => a &&& b) rn rm s

/-- OR (R77). -/
def execOr (rn rm : RegField) (s : State) : Answer := aluBitwise .or (fun a b => a ||| b) rn rm s

/-- XOR (R78). -/
def execXor (rn rm : RegField) (s : State) : Answer := aluBitwise .xor (fun a b => a ^^^ b) rn rm s

/-- NOT (R79): the field `rm` is ignored. -/
def execNot (rn : RegField) (s : State) : Answer :=
  formR .not rn s fun n => .next (s.writeResult n (s.reg n ^^^ 0xFFFFFFFF#32))

end Sys2Proof.Machine
end

