-- ==== Sys2Proof/Machine/Control.lean ====
section
/-! DEFINITION. JMP, JZ, JN (43_control_transfer.md R86 to R90). `pc` is already advanced when these run (R10). -/

namespace Sys2Proof.Machine

/-- `pc <- target`. -/
def State.setPc (s : State) (target : Nat) : State := { s with pc := target }

/-- JMP (R87). -/
def execJmp (dir : Dir) (s : State) : Answer :=
  formD .jmp dir s fun target => .next (s.setPc target)

/-- JZ (R88): the target is checked before the condition. -/
def execJz (dir : Dir) (s : State) : Answer :=
  formD .jz dir s fun target => .next (if s.lastIsZero then s.setPc target else s)

/-- JN (R89): the target is checked before the condition. -/
def execJn (dir : Dir) (s : State) : Answer :=
  formD .jn dir s fun target => .next (if s.lastIsNegative then s.setPc target else s)

end Sys2Proof.Machine
end

