-- ==== Sys2Proof/Machine/Io.lean ====
section
/-! DEFINITION. IN, OUT, NOP, HALT (44_io_system.md R91 to R96). -/

namespace Sys2Proof.Machine

/-- IN (R91): the register is checked before an item is taken; a malformed item is taken and faults; on an exhausted input
the machine has no step (R96, D12). -/
def execIn (rn : RegField) (s : State) : Answer :=
  formR .inp rn s fun n =>
    match s.inPop with
    | none => .fault .inputExhausted
    | some (.value v, t) => .next (t.writeMoved n v)
    | some (.malformed, t) => failWith .malformedInput .inp t

/-- OUT (R92). -/
def execOut (rn : RegField) (s : State) : Answer :=
  formR .out rn s fun n => .next (s.outPush (s.reg n))

/-- NOP (R93): it clears `last`. -/
def execNop (s : State) : Answer := .next (s.setLast 0)

/-- HALT (R94): the cycle turns the flag into the status Halted (R66). -/
def execHalt (s : State) : Answer := .next { s.setLast 0 with halted := true }

end Sys2Proof.Machine
end

