-- ==== Sys2Proof/Machine/Move.lean ====
section
/-! DEFINITION. MOV, LDR, STR (42_data_move.md R82 to R85). -/

namespace Sys2Proof.Machine

/-- MOV (R82): `last` keeps its value. -/
def execMov (rn rm : RegField) (s : State) : Answer :=
  formRR .mov rn rm s fun n m => .next (s.writeMoved n (s.reg m))

/-- LDR (R83): the register is checked first, then the bound (R105). -/
def execLdr (rn : RegField) (dir : Dir) (s : State) : Answer :=
  formR .ldr rn s fun n =>
    orFail .ldr (s.memRead .data (dataAddr dir)) s fun v => .next (s.writeMoved n v)

/-- STR (R84): the register is checked first, then the bound (R105); a failed store writes no byte (R38). -/
def execStr (rn : RegField) (dir : Dir) (s : State) : Answer :=
  formR .str rn s fun n =>
    orFail .str (s.memWrite .data (dataAddr dir) (s.reg n)) s fun t => .next t

end Sys2Proof.Machine
end

