-- ==== Sys2Proof/Machine/Dispatch.lean ====
section
/-! DEFINITION. The dispatch: one handler per instruction (40_control_unit_cycle.md R65). -/

namespace Sys2Proof.Machine

def exec (i : Instr) (s : State) : Host.Outcome State Fault Refusal :=
  match i with
  | .nop => Sys2Proof.Machine.execNop s
  | .add rn rm => Sys2Proof.Machine.execAdd rn rm s
  | .sub rn rm => Sys2Proof.Machine.execSub rn rm s
  | .and rn rm => Sys2Proof.Machine.execAnd rn rm s
  | .or rn rm => Sys2Proof.Machine.execOr rn rm s
  | .xor rn rm => Sys2Proof.Machine.execXor rn rm s
  | .not rn => Sys2Proof.Machine.execNot rn s
  | .mov rn rm => Sys2Proof.Machine.execMov rn rm s
  | .ldr rn dir => Sys2Proof.Machine.execLdr rn dir s
  | .str rn dir => Sys2Proof.Machine.execStr rn dir s
  | .jmp dir => Sys2Proof.Machine.execJmp dir s
  | .jz dir => Sys2Proof.Machine.execJz dir s
  | .jn dir => Sys2Proof.Machine.execJn dir s
  | .inp rn => Sys2Proof.Machine.execIn rn s
  | .out rn => Sys2Proof.Machine.execOut rn s
  | .halt => Sys2Proof.Machine.execHalt s

end Sys2Proof.Machine
end

