-- ==== Sys2Proof/Machine/Loader.lean ====
section
/-! DEFINITION. The loader and the boot sequence: the host's acts before a run (70_reset_and_hazards.md R116 to R118). -/

namespace Sys2Proof.Machine

/-- The words stored one after another from an address on (R116). -/
def storeWords (m : Memory) (a : Nat) : List Word → Memory
  | [] => m
  | w :: ws => storeWords (m.setWord a w) (a + 4) ws

/-- `load_program(words)`: CapacityExceeded when they do not fit; else the state with CODE loaded from address 0, and the
start address 0 (R116, R117). -/
def loadProgram (words : List Word) (s : State) : Except FaultKind (Nat × State) :=
  if s.code.cap < 4 * words.length then .error .capacityExceeded
  else .ok (0, { s with code := storeWords s.code 0 words })

/-- The boot order of R118: reset, load, `pc` at the returned address, streams connected. A failed load starts no run
(R102). -/
def boot (words : List Word) (items : List InItem) (s : State) : Except FaultKind State :=
  match loadProgram words (hostReset s items) with
  | .ok (start, t) => .ok { t with pc := start }
  | .error k => .error k

end Sys2Proof.Machine
end

