-- ==== Sys2Proof/Machine/Run.lean ====
section
/-! DEFINITION. The run loop and the final report: how the host observes a run (10_state.md R28, R29; 40 R68). -/

namespace Sys2Proof.Machine

/-- How a bounded run ends. -/
inductive RunEnd where
  /-- The run reached Halted or Faulted: the end of a run (R67). -/
  | terminal (s : State)
  /-- The machine waits in IN on an exhausted input: not final (R96). -/
  | waiting (s : State)
  /-- Another reason of the model's own why a Running machine has no next state. -/
  | stopped (r : Fault) (s : State)
  /-- An instruction with no meaning. -/
  | refused (r : Refusal) (s : State)
  /-- The executor's bound is used up; the machine has none (R68, U17). -/
  | outOfFuel (s : State)
deriving DecidableEq, Repr

/-- `while status = Running: step` (R68), for at most `fuel` steps (U17). -/
def runLoop : Nat → State → RunEnd
  | 0, s => if s.status = .running then .outOfFuel s else .terminal s
  | fuel + 1, s =>
    if s.status = .running then
      match step s with
      | .next t => runLoop fuel t
      | .fault .inputExhausted => .waiting s
      | .fault r => .stopped r s
      | .refused r => .refused r s
    else .terminal s

/-- The final report of a run (R29). -/
structure Report where
  last : Word
  halted : Bool
  mbr : Word
  pc : Nat
  regs : Vector Word 8
  /-- The single diagnostic of a Faulted run. -/
  diagnostic : Option (FaultKind × OpName)
deriving DecidableEq, Repr

/-- The report read from a terminal state; a Running machine has none (R29, R67). -/
def finalReport (s : State) : Option Report :=
  match s.status with
  | .running => none
  | .halted => some { last := s.last, halted := s.halted, mbr := s.mbr, pc := s.pc, regs := s.regs, diagnostic := none }
  | .faulted k op =>
    some { last := s.last, halted := s.halted, mbr := s.mbr, pc := s.pc, regs := s.regs, diagnostic := some (k, op) }

/-- The spelling of a fault kind (R97). -/
def FaultKind.text : FaultKind → String
  | .outOfBounds => "OutOfBounds"
  | .invalidOperand => "InvalidOperand"
  | .capacityExceeded => "CapacityExceeded"
  | .malformedInput => "MalformedInput"
  | .unknownOpcode => "UnknownOpcode"

/-- The spelling of a failing operation's name (R103). -/
def OpName.text : OpName → String
  | .fetch => "FETCH"
  | .unknown => "UNKNOWN"
  | .add => "ADD"
  | .sub => "SUB"
  | .and => "AND"
  | .or => "OR"
  | .xor => "XOR"
  | .not => "NOT"
  | .mov => "MOV"
  | .ldr => "LDR"
  | .str => "STR"
  | .jmp => "JMP"
  | .jz => "JZ"
  | .jn => "JN"
  | .inp => "IN"
  | .out => "OUT"

end Sys2Proof.Machine
end

