-- ==== Sys2Proof/Safety.lean ====
section
/-! DEFINITION. What a legal state is, how a run ends cleanly, and which program words the spec advises a careful model to
accept (10_state.md R26, 60_exceptions.md R103, 93_implementation_defined.md U4, U5). -/

namespace Sys2Proof.Machine

/-- The 18 fault values a run can end in (R103). -/
def legalFault : FaultKind → OpName → Bool
  | .outOfBounds, op => decide (op ∈ [OpName.fetch, .ldr, .str, .jmp, .jz, .jn])
  | .invalidOperand, op =>
    decide (op ∈ [OpName.add, .sub, .and, .or, .xor, .not, .mov, .ldr, .str, .inp, .out])
  | .malformedInput, op => decide (op = OpName.inp)
  | .capacityExceeded, _ => false
  | .unknownOpcode, _ => false

/-- A status a run can have (R18, R103). -/
def Status.legal : Status → Bool
  | .running => true
  | .halted => true
  | .faulted k op => legalFault k op

/-- The invariant of the machine: `0 <= pc <= CODE_CAP`, and Halted exactly when the flag is set (R26); a fault record is
one of the 18 (R103); the capacities are in their range (R6); and the model's memories are in their canonical form. -/
structure State.Inv (s : State) : Prop where
  pc_le : s.pc ≤ s.code.cap
  halted_iff : s.status = .halted ↔ s.halted = true
  status_legal : s.status.legal = true
  codeCap_le : s.code.cap ≤ Config.maxCap
  dataCap_le : s.data.cap ≤ Config.maxCap
  code_wf : s.code.wf = true
  data_wf : s.data.wf = true

/-- The parameters are in the ranges the spec gives (R6), and the initial contents are canonical. -/
structure ConfigWf (cfg : Config) : Prop where
  codeCap_le : cfg.codeCap ≤ Config.maxCap
  dataCap_le : cfg.dataCap ≤ Config.maxCap
  code_wf : cellsWf 0 cfg.codeCap cfg.codeTailInit = true
  data_wf : cellsWf 0 cfg.dataCap cfg.dataInit = true

/-- A run's clean end (R67). -/
def CleanEnd (s : State) : Prop := s.status = .halted

/-- Bits 19 to 16 of the word are 0 (U4). -/
def reservedZero (w : Word) : Bool := decide (w.extractLsb' 16 4 = 0)

/-- The register fields the word's instruction does not use hold 0 to 7 (U5). -/
def unusedRegsValid (w : Word) : Bool :=
  match decode w with
  | .ok i =>
    match i.form with
    | .rr => true
    | .r => RegField.valid (decodeFields w).rm
    | .rd => RegField.valid (decodeFields w).rm
    | .z => RegField.valid (decodeFields w).rn && RegField.valid (decodeFields w).rm
    | .d => RegField.valid (decodeFields w).rn && RegField.valid (decodeFields w).rm
  | .error _ => false

/-- A word that a careful model accepts in a program (U4, U5). The machine itself runs every word. -/
def carefulWord (w : Word) : Bool := reservedZero w && unusedRegsValid w

end Sys2Proof.Machine
end

