-- ==== Sys2Proof/Certificates/Slice0/Obligations.lean ====
section
/-! DEFINITION. The statements about the machine. Each docstring names the rule of spec/ it formalises. Where a clause rests on
a decision the spec marks as its own (D1 to D26 of 92_eei_decisions.md), the docstring says so. -/

open Sys2Proof Sys2Proof.Machine

/-! ## Encoding -/

/-- Decoding the canonical word of any instruction, whatever its fields, gives that instruction back (R51, R52, R57). -/
def Obligations.DecodeOfEncode : Prop :=
  ∀ i : Instr, decode (encode i) = .ok i

/-- R57: `encode` puts the fields at their weights, `decode` after `encode` gives the fields back, `encode` after `decode`
clears bits 19 to 16, the word is negative exactly when `op >= 8`, and an instruction's canonical word has zeros in every
field its form does not use. The choice of zeros is the spec's own (D15). -/
def Obligations.CanonicalEncoding : Prop :=
  (∀ f : Fields, (encodeFields f).toNat = f.op.toNat * 2 ^ 28 + f.rn.toNat * 2 ^ 24 + f.rm.toNat * 2 ^ 20 + f.dir.toNat) ∧
  (∀ f : Fields, decodeFields (encodeFields f) = f) ∧
  (∀ w : Word, encodeFields (decodeFields w) = w &&& 0xFFF0FFFF#32) ∧
  (∀ f : Fields, signed (encodeFields f) < 0 ↔ 8 ≤ f.op.toNat) ∧
  (∀ i : Instr, encode i &&& ~~~ i.form.usedBits = 0)

/-- R49: the four fields are those of the shifts and masks, taken from the 32-bit pattern, for every word. -/
def Obligations.DecoderTakesShiftedFields : Prop :=
  ∀ w : Word,
    (decodeFields w).op.toNat = toU32 w / 2 ^ 28 % 16 ∧
    (decodeFields w).rn.toNat = toU32 w / 2 ^ 24 % 16 ∧
    (decodeFields w).rm.toNat = toU32 w / 2 ^ 20 % 16 ∧
    (decodeFields w).dir.toNat = toU32 w % 2 ^ 16

/-- R50: two words that differ only in bits 19 to 16 have the same fields and are the same instruction, and the canonical
encoding writes those bits as 0. That the encoding writes 0 there (R57) is the spec's decision D15 (log entry 12). -/
def Obligations.ReservedBitsIgnored : Prop :=
  (∀ w w' : Word, w &&& 0xFFF0FFFF#32 = w' &&& 0xFFF0FFFF#32 → decodeFields w = decodeFields w' ∧ decode w = decode w') ∧
  (∀ i : Instr, (encode i).extractLsb' 16 4 = 0)

/-- R51, R56 (ignoring unused fields is the spec's decision D15): an instruction is determined by the opcode and the fields
its form uses; clearing every other bit of a word gives the canonical word of the same instruction. -/
def Obligations.UnusedFieldsIgnored : Prop :=
  ∀ (w : Word) (i : Instr), decode w = .ok i → encode i = w &&& i.form.usedBits

/-- R52, R55 (the default arm is the spec's decision D21): every word is an instruction, the one its top four bits select,
and the default arm is reached by no opcode below 16 and by every integer from 16 on. -/
def Obligations.EveryWordIsAnInstruction : Prop :=
  (∀ w : Word, ∃ i : Instr, decode w = .ok i ∧ i.opcode = w.extractLsb' 28 4) ∧
  (∀ (op : Nat) (rn rm : RegField) (dir : Dir), (∃ i, selectInstr op rn rm dir = .ok i) ↔ op < 16)

/-- Words written out from the spec's encodings decode to the instructions they stand for (R52, R59). -/
def Obligations.SpecWordsDecode : Prop :=
  decode 0x10100000#32 = .ok (.add 0 1) ∧ decode 0x9200001C#32 = .ok (.str 2 28) ∧
  decode 0xB0000014#32 = .ok (.jz 20) ∧ decode 0xD1000000#32 = .ok (.inp 1) ∧
  decode 0xF0000000#32 = .ok .halt ∧ decode 0x00000007#32 = .ok .nop

/-! ## Arithmetic and logic -/

/-- R74: ADD, its encoding, its result and its fault. That a sum outside the range of a Word wraps is the spec's decision D4. -/
def Obligations.AddWritesWrappedSum : Prop :=
  (∀ w : Word, w.extractLsb' 28 4 = 0x1#4 → decode w = .ok (.add (w.extractLsb' 24 4) (w.extractLsb' 20 4))) ∧
  (∀ (s : State) (rn rm : RegField) (hn : rn.toNat < 8) (hm : rm.toNat < 8),
    exec (.add rn rm) s = .next { s with
      regs := s.regs.set rn.toNat (wrap32 (signed s.regs[rn.toNat] + signed s.regs[rm.toNat]))
      last := wrap32 (signed s.regs[rn.toNat] + signed s.regs[rm.toNat]) }) ∧
  (∀ (s : State) (rn rm : RegField), 7 < rn.toNat ∨ 7 < rm.toNat →
    exec (.add rn rm) s = .next { s with status := .faulted .invalidOperand .add })

/-- R75: SUB, its encoding, its result and its fault; its result is 0 exactly when the operands are equal, overflow or not.
That a difference outside the range of a Word wraps is the spec's decision D4. -/
def Obligations.SubWritesWrappedDifference : Prop :=
  (∀ w : Word, w.extractLsb' 28 4 = 0x2#4 → decode w = .ok (.sub (w.extractLsb' 24 4) (w.extractLsb' 20 4))) ∧
  (∀ (s : State) (rn rm : RegField) (hn : rn.toNat < 8) (hm : rm.toNat < 8),
    exec (.sub rn rm) s = .next { s with
      regs := s.regs.set rn.toNat (wrap32 (signed s.regs[rn.toNat] - signed s.regs[rm.toNat]))
      last := wrap32 (signed s.regs[rn.toNat] - signed s.regs[rm.toNat]) }) ∧
  (∀ (s : State) (rn rm : RegField), 7 < rn.toNat ∨ 7 < rm.toNat →
    exec (.sub rn rm) s = .next { s with status := .faulted .invalidOperand .sub }) ∧
  (∀ a b : Word, wrap32 (signed a - signed b) = 0 ↔ a = b)

/-- R76: AND, its encoding, its result and its fault; the result is negative exactly when both operands are. -/
def Obligations.AndWritesConjunction : Prop :=
  (∀ w : Word, w.extractLsb' 28 4 = 0x3#4 → decode w = .ok (.and (w.extractLsb' 24 4) (w.extractLsb' 20 4))) ∧
  (∀ (s : State) (rn rm : RegField) (hn : rn.toNat < 8) (hm : rm.toNat < 8),
    exec (.and rn rm) s = .next { s with
      regs := s.regs.set rn.toNat (s.regs[rn.toNat] &&& s.regs[rm.toNat])
      last := s.regs[rn.toNat] &&& s.regs[rm.toNat] }) ∧
  (∀ (s : State) (rn rm : RegField), 7 < rn.toNat ∨ 7 < rm.toNat →
    exec (.and rn rm) s = .next { s with status := .faulted .invalidOperand .and }) ∧
  (∀ a b : Word, signed (a &&& b) < 0 ↔ signed a < 0 ∧ signed b < 0)

/-- R77: OR, its encoding, its result and its fault; the result is negative exactly when at least one operand is. -/
def Obligations.OrWritesDisjunction : Prop :=
  (∀ w : Word, w.extractLsb' 28 4 = 0x4#4 → decode w = .ok (.or (w.extractLsb' 24 4) (w.extractLsb' 20 4))) ∧
  (∀ (s : State) (rn rm : RegField) (hn : rn.toNat < 8) (hm : rm.toNat < 8),
    exec (.or rn rm) s = .next { s with
      regs := s.regs.set rn.toNat (s.regs[rn.toNat] ||| s.regs[rm.toNat])
      last := s.regs[rn.toNat] ||| s.regs[rm.toNat] }) ∧
  (∀ (s : State) (rn rm : RegField), 7 < rn.toNat ∨ 7 < rm.toNat →
    exec (.or rn rm) s = .next { s with status := .faulted .invalidOperand .or }) ∧
  (∀ a b : Word, signed (a ||| b) < 0 ↔ signed a < 0 ∨ signed b < 0)

/-- R78: XOR, its encoding, its result and its fault; the result is negative exactly when the signs differ. -/
def Obligations.XorWritesExclusiveOr : Prop :=
  (∀ w : Word, w.extractLsb' 28 4 = 0x5#4 → decode w = .ok (.xor (w.extractLsb' 24 4) (w.extractLsb' 20 4))) ∧
  (∀ (s : State) (rn rm : RegField) (hn : rn.toNat < 8) (hm : rm.toNat < 8),
    exec (.xor rn rm) s = .next { s with
      regs := s.regs.set rn.toNat (s.regs[rn.toNat] ^^^ s.regs[rm.toNat])
      last := s.regs[rn.toNat] ^^^ s.regs[rm.toNat] }) ∧
  (∀ (s : State) (rn rm : RegField), 7 < rn.toNat ∨ 7 < rm.toNat →
    exec (.xor rn rm) s = .next { s with status := .faulted .invalidOperand .xor }) ∧
  (∀ a b : Word, signed (a ^^^ b) < 0 ↔ ¬ (signed a < 0 ↔ signed b < 0))

/-- R79: NOT, its encoding (`rm` ignored), its result and its fault; the result is `-x[rn] - 1`, and NOT twice restores. That
an `rm` of 8 to 15 is ignored and does not fault is the spec's decision D15 (log entry 12); that the complement is the 32-bit
one is its decision D5 (R80, log entry 22). -/
def Obligations.NotWritesComplement : Prop :=
  (∀ w : Word, w.extractLsb' 28 4 = 0x6#4 → decode w = .ok (.not (w.extractLsb' 24 4))) ∧
  (∀ (s : State) (rn : RegField) (hn : rn.toNat < 8),
    exec (.not rn) s = .next { s with
      regs := s.regs.set rn.toNat (s.regs[rn.toNat] ^^^ 0xFFFFFFFF#32)
      last := s.regs[rn.toNat] ^^^ 0xFFFFFFFF#32 }) ∧
  (∀ (s : State) (rn : RegField), 7 < rn.toNat →
    exec (.not rn) s = .next { s with status := .faulted .invalidOperand .not }) ∧
  (∀ a : Word, signed (a ^^^ 0xFFFFFFFF#32) = - signed a - 1 ∧ (a ^^^ 0xFFFFFFFF#32) ^^^ 0xFFFFFFFF#32 = a)

/-- R81 (which the spec derives from R73 to R78): with the same register as source and destination ADD doubles, SUB and XOR
clear, and AND and OR leave every register as it was and set `last`. That the doubled value wraps is the spec's decision D4
(R80, log entry 7). -/
def Obligations.SameRegisterOperands : Prop :=
  ∀ (s : State) (r : RegField) (h : r.toNat < 8),
    exec (.add r r) s = .next { s with
      regs := s.regs.set r.toNat (wrap32 (2 * signed s.regs[r.toNat])), last := wrap32 (2 * signed s.regs[r.toNat]) } ∧
    exec (.sub r r) s = .next { s with regs := s.regs.set r.toNat 0, last := 0 } ∧
    exec (.and r r) s = .next { s with last := s.regs[r.toNat] } ∧
    exec (.or r r) s = .next { s with last := s.regs[r.toNat] } ∧
    exec (.xor r r) s = .next { s with regs := s.regs.set r.toNat 0, last := 0 }

/-! ## Data moves -/

/-- R82: MOV copies the Word and faults on a bad register; that `last` keeps its value is the spec's decision D6. -/
def Obligations.MovCopiesRegister : Prop :=
  (∀ w : Word, w.extractLsb' 28 4 = 0x7#4 → decode w = .ok (.mov (w.extractLsb' 24 4) (w.extractLsb' 20 4))) ∧
  (∀ (s : State) (rn rm : RegField) (hn : rn.toNat < 8) (hm : rm.toNat < 8),
    exec (.mov rn rm) s = .next { s with regs := s.regs.set rn.toNat s.regs[rm.toNat] }) ∧
  (∀ (s : State) (rn rm : RegField), 7 < rn.toNat ∨ 7 < rm.toNat →
    exec (.mov rn rm) s = .next { s with status := .faulted .invalidOperand .mov })

/-- R83, R85: LDR loads the four bytes at the absolute address `dir`, least significant first, aligned or not; a bad register
and then an address out of bounds fault. That `last` keeps its value is the spec's decision D6; that the register is checked
first is its decision D7. -/
def Obligations.LdrLoadsWord : Prop :=
  (∀ w : Word, w.extractLsb' 28 4 = 0x8#4 → decode w = .ok (.ldr (w.extractLsb' 24 4) (w.extractLsb' 0 16))) ∧
  (∀ (s : State) (rn : RegField) (dir : Dir) (hn : rn.toNat < 8), dir.toNat + 4 ≤ s.data.cap →
    exec (.ldr rn dir) s = .next { s with
      regs := s.regs.set rn.toNat (wordOfBytes (s.data.byte dir.toNat) (s.data.byte (dir.toNat + 1))
        (s.data.byte (dir.toNat + 2)) (s.data.byte (dir.toNat + 3))) }) ∧
  (∀ (s : State) (rn : RegField) (dir : Dir), 7 < rn.toNat →
    exec (.ldr rn dir) s = .next { s with status := .faulted .invalidOperand .ldr }) ∧
  (∀ (s : State) (rn : RegField) (dir : Dir), rn.toNat < 8 → s.data.cap < dir.toNat + 4 →
    exec (.ldr rn dir) s = .next { s with status := .faulted .outOfBounds .ldr })

/-- R84, R85, R38: STR stores the four little-endian bytes of the register at the absolute address `dir` and changes no other
byte and nothing else; a bad register and then an address out of bounds fault and store nothing. That `last` keeps its value
is the spec's decision D6; that the register is checked first is its decision D7. -/
def Obligations.StrStoresWord : Prop :=
  (∀ w : Word, w.extractLsb' 28 4 = 0x9#4 → decode w = .ok (.str (w.extractLsb' 24 4) (w.extractLsb' 0 16))) ∧
  (∀ (s : State) (rn : RegField) (dir : Dir) (hn : rn.toNat < 8), dir.toNat + 4 ≤ s.data.cap →
    ∃ t : State, exec (.str rn dir) s = .next t ∧ t = { s with data := t.data } ∧ t.data.cap = s.data.cap ∧
      t.data.byte dir.toNat = s.regs[rn.toNat].extractLsb' 0 8 ∧
      t.data.byte (dir.toNat + 1) = s.regs[rn.toNat].extractLsb' 8 8 ∧
      t.data.byte (dir.toNat + 2) = s.regs[rn.toNat].extractLsb' 16 8 ∧
      t.data.byte (dir.toNat + 3) = s.regs[rn.toNat].extractLsb' 24 8 ∧
      ∀ a : Nat, a < dir.toNat ∨ dir.toNat + 4 ≤ a → t.data.byte a = s.data.byte a) ∧
  (∀ (s : State) (rn : RegField) (dir : Dir), 7 < rn.toNat →
    exec (.str rn dir) s = .next { s with status := .faulted .invalidOperand .str }) ∧
  (∀ (s : State) (rn : RegField) (dir : Dir), rn.toNat < 8 → s.data.cap < dir.toNat + 4 →
    exec (.str rn dir) s = .next { s with status := .faulted .outOfBounds .str })

/-! ## Control transfer -/

/-- R87: JMP, its encoding (`rn` and `rm` ignored), its effect and its fault. That the capacity that bounds the target is
that of code memory is the spec's decision D8; that `last` keeps its value is its decision D6. -/
def Obligations.JmpSetsPc : Prop :=
  (∀ w : Word, w.extractLsb' 28 4 = 0xA#4 → decode w = .ok (.jmp (w.extractLsb' 0 16))) ∧
  (∀ (s : State) (dir : Dir), dir.toNat + 4 ≤ s.code.cap → exec (.jmp dir) s = .next { s with pc := dir.toNat }) ∧
  (∀ (s : State) (dir : Dir), s.code.cap < dir.toNat + 4 →
    exec (.jmp dir) s = .next { s with status := .faulted .outOfBounds .jmp })

/-- R88: JZ jumps exactly when `last` is 0, and faults on a bad target whatever `last` is. That the capacity that bounds the
target is that of code memory is the spec's decision D8; that `last` keeps its value is its decision D6. -/
def Obligations.JzJumpsOnZero : Prop :=
  (∀ w : Word, w.extractLsb' 28 4 = 0xB#4 → decode w = .ok (.jz (w.extractLsb' 0 16))) ∧
  (∀ (s : State) (dir : Dir), dir.toNat + 4 ≤ s.code.cap →
    exec (.jz dir) s = .next { s with pc := if s.last = 0 then dir.toNat else s.pc }) ∧
  (∀ (s : State) (dir : Dir), s.code.cap < dir.toNat + 4 →
    exec (.jz dir) s = .next { s with status := .faulted .outOfBounds .jz })

/-- R89: JN jumps exactly when `last` is negative, that is when its bit 31 is set, and faults on a bad target whatever `last`
is; JZ and JN are never both taken. That the capacity that bounds the target is that of code memory is the spec's decision
D8; that `last` keeps its value is its decision D6. -/
def Obligations.JnJumpsOnNegative : Prop :=
  (∀ w : Word, w.extractLsb' 28 4 = 0xC#4 → decode w = .ok (.jn (w.extractLsb' 0 16))) ∧
  (∀ (s : State) (dir : Dir), dir.toNat + 4 ≤ s.code.cap →
    exec (.jn dir) s = .next { s with pc := if signed s.last < 0 then dir.toNat else s.pc }) ∧
  (∀ (s : State) (dir : Dir), s.code.cap < dir.toNat + 4 →
    exec (.jn dir) s = .next { s with status := .faulted .outOfBounds .jn }) ∧
  (∀ v : Word, (signed v < 0 ↔ v.getLsbD 31 = true) ∧ ¬ (v = 0 ∧ signed v < 0))

/-! ## Input, output, NOP, HALT -/

/-- R91: IN takes one item into the register; a bad register faults and takes no item (the order is the spec's decision D7); a
malformed item is taken and faults (D11). That `last` keeps its value is the spec's decision D6. -/
def Obligations.InTakesItem : Prop :=
  (∀ w : Word, w.extractLsb' 28 4 = 0xD#4 → decode w = .ok (.inp (w.extractLsb' 24 4))) ∧
  (∀ (s : State) (rn : RegField) (hn : rn.toNat < 8) (v : Word) (rest : List InItem), s.input = .value v :: rest →
    exec (.inp rn) s = .next { s with regs := s.regs.set rn.toNat v, input := rest }) ∧
  (∀ (s : State) (rn : RegField) (rest : List InItem), rn.toNat < 8 → s.input = .malformed :: rest →
    exec (.inp rn) s = .next { s with input := rest, status := .faulted .malformedInput .inp }) ∧
  (∀ (s : State) (rn : RegField), 7 < rn.toNat →
    exec (.inp rn) s = .next { s with status := .faulted .invalidOperand .inp })

/-- R96 (D12: a finite input that is exhausted leaves the machine without a step, not final): IN on an empty stream has no
next state; the machine waits inside the step, with `pc` advanced and `mbr` the IN word; and once the environment delivers an
item the step completes from there as R91 says. That the completed IN keeps `last` is the spec's decision D6 (log entry 8);
that the malformed item is consumed is its decision D11 (log entry 11). -/
def Obligations.InWaitsForAnItem : Prop :=
  (∀ (s : State) (rn : RegField), rn.toNat < 8 → s.input = [] → exec (.inp rn) s = .fault .inputExhausted) ∧
  (∀ (s : State) (rn : RegField) (hn : rn.toNat < 8), s.status = .running → s.halted = false → s.pc + 4 ≤ s.code.cap →
    decode (s.code.word s.pc) = .ok (.inp rn) → s.input = [] →
    step s = .fault .inputExhausted ∧
    insideStep s = { s with pc := s.pc + 4, mbr := s.code.word s.pc } ∧
    (∀ (v : Word) (rest : List InItem),
      step (s.deliver (.value v :: rest)) = .next { insideStep s with regs := s.regs.set rn.toNat v, input := rest }) ∧
    (∀ rest : List InItem,
      step (s.deliver (.malformed :: rest)) =
        .next { insideStep s with input := rest, status := .faulted .malformedInput .inp }))

/-- R92: OUT appends the register's value to the output stream; a bad register faults and nothing is emitted. That `last`
keeps its value is the spec's decision D6. -/
def Obligations.OutAppendsRecord : Prop :=
  (∀ w : Word, w.extractLsb' 28 4 = 0xE#4 → decode w = .ok (.out (w.extractLsb' 24 4))) ∧
  (∀ (s : State) (rn : RegField) (hn : rn.toNat < 8),
    exec (.out rn) s = .next { s with output := s.output ++ [s.regs[rn.toNat]] }) ∧
  (∀ (s : State) (rn : RegField), 7 < rn.toNat →
    exec (.out rn) s = .next { s with status := .faulted .invalidOperand .out })

/-- R93: every Word with `op = 0` is a NOP, and NOP clears `last` and changes nothing else. -/
def Obligations.NopClearsLast : Prop :=
  (∀ w : Word, w.extractLsb' 28 4 = 0x0#4 → decode w = .ok .nop) ∧
  (∀ s : State, exec .nop s = .next { s with last := 0 })

/-- R94: HALT clears `last` and sets `halted`; the step that executes it ends in status Halted with `pc` the address of the
HALT plus 4 and `mbr` the HALT word. -/
def Obligations.HaltStopsCleanly : Prop :=
  (∀ w : Word, w.extractLsb' 28 4 = 0xF#4 → decode w = .ok .halt) ∧
  (∀ s : State, exec .halt s = .next { s with last := 0, halted := true }) ∧
  (∀ s : State, s.status = .running → s.pc + 4 ≤ s.code.cap → (s.code.word s.pc).extractLsb' 28 4 = 0xF#4 →
    step s = .next { s with
      last := 0, halted := true, status := .halted, pc := s.pc + 4, mbr := s.code.word s.pc })

/-! ## The cycle -/

/-- R63: one step of a Running machine. A fetch out of bounds faults; otherwise the instruction decoded from the word at `pc`
runs on the state with `mbr` the word and `pc` advanced by 4, and after a handler that raised nothing the halted flag turns
the status into Halted. Of the failed fetch (R70), the name FETCH is the spec's decision D13 (log entry 20), and that `pc` and
`mbr` are unchanged is its decision D17 (log entry 14). -/
def Obligations.StepRunsDecodedInstruction : Prop :=
  (∀ s : State, s.status = .running → s.code.cap < s.pc + 4 →
    step s = .next { s with status := .faulted .outOfBounds .fetch }) ∧
  (∀ (s : State) (i : Instr), s.status = .running → s.pc + 4 ≤ s.code.cap → decode (s.code.word s.pc) = .ok i →
    step s =
      match exec i { s with mbr := s.code.word s.pc, pc := s.pc + 4 } with
      | .next t => .next (if t.status = .running ∧ t.halted = true then { t with status := .halted } else t)
      | .fault r => .fault r
      | .refused r => .refused r)

/-- R64: where `pc` is after a step: a taken jump puts its absolute target there; every other step whose fetch succeeded,
completed or failed, leaves the fetch address plus 4; a failed fetch leaves `pc` at the address that could not be fetched. That
a jump's bound is CODE_CAP is the spec's decision D8; that a failed fetch leaves `pc` is its decision D17. -/
def Obligations.PcAfterStep : Prop :=
  (∀ (s t : State) (i : Instr), s.pc + 4 ≤ s.code.cap → decode (s.code.word s.pc) = .ok i → step s = .next t →
    t.pc = match i with
      | .jmp dir => if dir.toNat + 4 ≤ s.code.cap then dir.toNat else s.pc + 4
      | .jz dir => if dir.toNat + 4 ≤ s.code.cap ∧ s.last = 0 then dir.toNat else s.pc + 4
      | .jn dir => if dir.toNat + 4 ≤ s.code.cap ∧ signed s.last < 0 then dir.toNat else s.pc + 4
      | _ => s.pc + 4) ∧
  (∀ s t : State, s.code.cap < s.pc + 4 → step s = .next t → t.pc = s.pc)

/-- R66, R17: from a state whose halted flag is clear, a step sets the flag, and makes the status Halted, exactly when it
executed a HALT. -/
def Obligations.OnlyHaltHalts : Prop :=
  ∀ s t : State, s.halted = false → step s = .next t →
    (t.halted = true ↔ s.pc + 4 ≤ s.code.cap ∧ decode (s.code.word s.pc) = .ok .halt) ∧
    (t.status = .halted ↔ s.pc + 4 ≤ s.code.cap ∧ decode (s.code.word s.pc) = .ok .halt)

/-- R67 (that only the host's reset leaves a terminal state is the spec's decision D14): Halted and Faulted have no step;
the host's reset gives a Running machine. -/
def Obligations.TerminalStatesHaveNoStep : Prop :=
  (∀ s t : State, s.status ≠ .running → step s ≠ .next t) ∧
  (∀ s : State, s.status = .halted → step s = .fault .terminalHalted) ∧
  (∀ (s : State) (k : FaultKind) (op : OpName), s.status = .faulted k op → step s = .fault (.terminalFaulted k op)) ∧
  (∀ (s : State) (items : List InItem), (hostReset s items).status = .running)

/-- R121, R96: a Running machine always steps, unless it executes an IN with a valid register on an exhausted input (no step
there is the spec's decision D12). -/
def Obligations.RunningMachineSteps : Prop :=
  ∀ s : State, s.status = .running →
    (∃ t, step s = .next t) ∨
    (step s = .fault .inputExhausted ∧ s.pc + 4 ≤ s.code.cap ∧ s.input = [] ∧
      ∃ rn : RegField, rn.toNat < 8 ∧ decode (s.code.word s.pc) = .ok (.inp rn))

/-! ## Faults -/

/-- R70 (the name FETCH is the spec's decision D13, the unchanged `mbr` its decision D17): a failed fetch changes the status
alone, and it happens exactly when `pc + 4` exceeds the capacity. -/
def Obligations.FetchFailureChangesStatusOnly : Prop :=
  ∀ s : State, s.status = .running →
    (s.code.cap < s.pc + 4 → step s = .next { s with status := .faulted .outOfBounds .fetch }) ∧
    (∀ (t : State) (k : FaultKind), step s = .next t → t.status = .faulted k .fetch → s.code.cap < s.pc + 4)

/-- R71, R106 (no partial effect is the spec's decision D7, the consumed malformed item its decision D11): a step whose
handler fails changes the status, `pc`, `mbr` and nothing else, but for the malformed item that IN consumed. -/
def Obligations.HandlerFailureIsPrecise : Prop :=
  ∀ (s t : State) (k : FaultKind) (op : OpName), s.pc + 4 ≤ s.code.cap → step s = .next t → t.status = .faulted k op →
    t = { s with status := .faulted k op, pc := s.pc + 4, mbr := s.code.word s.pc, input := t.input } ∧
    (t.input = s.input ∨ (k = .malformedInput ∧ op = .inp ∧ s.input = .malformed :: t.input))

/-- R98 (that the register is checked before the bound is the spec's decision D7, that a jump's bound is CODE_CAP its decision
D8): when a step ends in OutOfBounds, and under which name. -/
def Obligations.OutOfBoundsExactly : Prop :=
  ∀ (s t : State) (op : OpName), step s = .next t →
    (t.status = .faulted .outOfBounds op ↔
      (op = .fetch ∧ s.code.cap < s.pc + 4) ∨
      (s.pc + 4 ≤ s.code.cap ∧
        ((∃ (rn : RegField) (dir : Dir), decode (s.code.word s.pc) = .ok (.ldr rn dir) ∧ op = .ldr ∧ rn.toNat ≤ 7 ∧
            s.data.cap < dir.toNat + 4) ∨
         (∃ (rn : RegField) (dir : Dir), decode (s.code.word s.pc) = .ok (.str rn dir) ∧ op = .str ∧ rn.toNat ≤ 7 ∧
            s.data.cap < dir.toNat + 4) ∨
         (∃ dir : Dir, decode (s.code.word s.pc) = .ok (.jmp dir) ∧ op = .jmp ∧ s.code.cap < dir.toNat + 4) ∨
         (∃ dir : Dir, decode (s.code.word s.pc) = .ok (.jz dir) ∧ op = .jz ∧ s.code.cap < dir.toNat + 4) ∨
         (∃ dir : Dir, decode (s.code.word s.pc) = .ok (.jn dir) ∧ op = .jn ∧ s.code.cap < dir.toNat + 4))))

/-- R99: a handler raises InvalidOperand exactly when a register field its instruction uses holds 8 to 15. That fields a form
does not use are never checked is the spec's decision D15 (log entry 12). That LDR, STR and IN report InvalidOperand even when
the address is out of bounds or the input item malformed is its decision D7 (R105, log entry 9). -/
def Obligations.InvalidOperandExactly : Prop :=
  ∀ (i : Instr) (s : State), s.status = .running →
    ((∃ (t : State) (op : OpName), exec i s = .next t ∧ t.status = .faulted .invalidOperand op) ↔
      match i with
      | .add rn rm | .sub rn rm | .and rn rm | .or rn rm | .xor rn rm | .mov rn rm => 8 ≤ rn.toNat ∨ 8 ≤ rm.toNat
      | .not rn | .ldr rn _ | .str rn _ | .inp rn | .out rn => 8 ≤ rn.toNat
      | .nop | .jmp _ | .jz _ | .jn _ | .halt => False)

/-- R100 (that the register is checked before an item is taken is the spec's decision D7): a step ends in MalformedInput
exactly when it executed an IN with a valid register whose item is malformed, and the name reported is IN's. -/
def Obligations.MalformedInputExactly : Prop :=
  ∀ (s t : State) (op : OpName), step s = .next t →
    (t.status = .faulted .malformedInput op ↔
      op = .inp ∧ s.pc + 4 ≤ s.code.cap ∧
        ∃ (rn : RegField) (rest : List InItem), decode (s.code.word s.pc) = .ok (.inp rn) ∧ rn.toNat ≤ 7 ∧
          s.input = .malformed :: rest)

/-- R103 (the pair and the names FETCH and UNKNOWN are the spec's decision D13): the fault values in which a run of a loaded
program can end are exactly these 18. -/
def Obligations.ReachableFaultValues : Prop :=
  ∀ (k : FaultKind) (op : OpName),
    (∃ (words : List Word) (items : List InItem) (s t : State) (fuel : Nat),
      boot words items State.reset = .ok s ∧ runLoop fuel s = .terminal t ∧ t.status = .faulted k op) ↔
    (k, op) ∈ [(FaultKind.outOfBounds, OpName.fetch), (.outOfBounds, .ldr), (.outOfBounds, .str), (.outOfBounds, .jmp),
      (.outOfBounds, .jz), (.outOfBounds, .jn), (.invalidOperand, .add), (.invalidOperand, .sub), (.invalidOperand, .and),
      (.invalidOperand, .or), (.invalidOperand, .xor), (.invalidOperand, .not), (.invalidOperand, .mov),
      (.invalidOperand, .ldr), (.invalidOperand, .str), (.invalidOperand, .inp), (.invalidOperand, .out),
      (.malformedInput, .inp)]

/-! ## Memory -/

/-- R31: an access at any integer address is in bounds exactly when `0 <= a` and `a + 4 <= CAP`; out of bounds, a read and a
write fail with OutOfBounds. -/
def Obligations.BoundRule : Prop :=
  ∀ (m : Memory) (a : Int) (v : Word),
    (0 ≤ a ∧ a + 4 ≤ (m.cap : Int) → (∃ w, m.readWord a = .ok w) ∧ (∃ m', m.writeWord a v = .ok m')) ∧
    (¬ (0 ≤ a ∧ a + 4 ≤ (m.cap : Int)) → m.readWord a = .error .outOfBounds ∧ m.writeWord a v = .error .outOfBounds)

/-- R32, R35: a read at any in-bounds address, aligned or not, gives the Word whose pattern is the sum of its four bytes,
least significant first. -/
def Obligations.ReadIsLittleEndian : Prop :=
  ∀ (m : Memory) (a : Int),
    (0 ≤ a ∧ a + 4 ≤ (m.cap : Int) →
      ∃ w : Word, m.readWord a = .ok w ∧
        toU32 w = (m.byte a.toNat).toNat + 2 ^ 8 * (m.byte (a.toNat + 1)).toNat
          + 2 ^ 16 * (m.byte (a.toNat + 2)).toNat + 2 ^ 24 * (m.byte (a.toNat + 3)).toNat) ∧
    (a < 0 ∨ (m.cap : Int) < a + 4 → m.readWord a = .error .outOfBounds)

/-- R33: a write at any in-bounds address stores the four little-endian bytes of the pattern and changes no other byte and
not the capacity; out of bounds it fails. -/
def Obligations.WriteIsLittleEndian : Prop :=
  ∀ (m : Memory) (a : Int) (v : Word),
    (0 ≤ a ∧ a + 4 ≤ (m.cap : Int) →
      ∃ m' : Memory, m.writeWord a v = .ok m' ∧ m'.cap = m.cap ∧
        (m'.byte a.toNat).toNat = toU32 v % 2 ^ 8 ∧
        (m'.byte (a.toNat + 1)).toNat = toU32 v / 2 ^ 8 % 2 ^ 8 ∧
        (m'.byte (a.toNat + 2)).toNat = toU32 v / 2 ^ 16 % 2 ^ 8 ∧
        (m'.byte (a.toNat + 3)).toNat = toU32 v / 2 ^ 24 % 2 ^ 8 ∧
        ∀ b : Nat, b < a.toNat ∨ a.toNat + 4 ≤ b → m'.byte b = m.byte b) ∧
    (a < 0 ∨ (m.cap : Int) < a + 4 → m.writeWord a v = .error .outOfBounds)

/-- R34: at every valid address, a write succeeds and a read of what it leaves returns the value written. -/
def Obligations.ReadAfterWrite : Prop :=
  ∀ (m : Memory) (a : Int) (v : Word), 0 ≤ a ∧ a + 4 ≤ (m.cap : Int) →
    ∃ m' : Memory, m.writeWord a v = .ok m' ∧ m'.readWord a = .ok v

/-- R44, R21 (R44 is marked as derived by the spec): no step changes code memory, nor either capacity. -/
def Obligations.CodeIsConstant : Prop :=
  ∀ s t : State, step s = .next t → t.code = s.code ∧ t.data.cap = s.data.cap

/-- R22, R39: a step changes a byte of data memory only when it executes an in-bounds STR, and then only one of the four bytes
from its `dir` on. -/
def Obligations.OnlyStrWritesData : Prop :=
  ∀ (s t : State) (a : Nat), step s = .next t → t.data.byte a ≠ s.data.byte a →
    s.pc + 4 ≤ s.code.cap ∧
    ∃ (rn : RegField) (dir : Dir), decode (s.code.word s.pc) = .ok (.str rn dir) ∧ rn.toNat ≤ 7 ∧
      dir.toNat + 4 ≤ s.data.cap ∧ dir.toNat ≤ a ∧ a < dir.toNat + 4

/-! ## Frames -/

/-- What ADD, SUB, AND, OR, XOR, NOT, MOV and LDR leave unchanged in every next state, a fault's included: every register but
the destination, `last` where the instruction is MOV or LDR (the spec's decision D6) or the handler failed, `pc`, `mbr`, the
halted flag, every byte of both memories, both capacities and both streams; the status changes only to Faulted (R14, R16, R73,
R82, R83). -/
def Obligations.RegisterInstructionsFrame : Prop :=
  ∀ (i : Instr) (rn : RegField) (s t : State),
    ((∃ rm, i = .add rn rm ∨ i = .sub rn rm ∨ i = .and rn rm ∨ i = .or rn rm ∨ i = .xor rn rm ∨ i = .mov rn rm) ∨
      i = .not rn ∨ (∃ dir, i = .ldr rn dir)) →
    exec i s = .next t →
    (∀ n : Fin 8, n.val ≠ rn.toNat → t.reg n = s.reg n) ∧
    ((∃ rm, i = .mov rn rm) ∨ (∃ dir, i = .ldr rn dir) ∨ t.status ≠ s.status → t.last = s.last) ∧
    (t.status = s.status ∨ ∃ k op, t.status = .faulted k op ∧ t.regs = s.regs) ∧
    t.pc = s.pc ∧ t.mbr = s.mbr ∧ t.halted = s.halted ∧ t.input = s.input ∧ t.output = s.output ∧
    t.code.cap = s.code.cap ∧ t.data.cap = s.data.cap ∧
    (∀ a : Nat, t.code.byte a = s.code.byte a) ∧ (∀ a : Nat, t.data.byte a = s.data.byte a)

/-- What STR leaves unchanged in every next state, a fault's included: everything but the status, and every byte of data
memory outside the four from the address `dataAddr dir` on, which is the address its meaning stores to; a next state whose
status changed leaves every byte (R14, R38, R84; the spec's decision D6 for `last`). -/
def Obligations.StrFrame : Prop :=
  ∀ (rn : RegField) (dir : Dir) (s t : State), exec (.str rn dir) s = .next t →
    t.regs = s.regs ∧ t.last = s.last ∧ t.pc = s.pc ∧ t.mbr = s.mbr ∧ t.halted = s.halted ∧ t.input = s.input ∧
    t.output = s.output ∧ t.code.cap = s.code.cap ∧ t.data.cap = s.data.cap ∧
    (t.status = s.status ∨ ∃ k, t.status = .faulted k .str) ∧
    (∀ a : Nat, t.code.byte a = s.code.byte a) ∧
    (∀ a : Nat, (a : Int) < dataAddr dir ∨ dataAddr dir + 4 ≤ (a : Int) ∨ t.status ≠ s.status →
      t.data.byte a = s.data.byte a)

/-- What JMP, JZ and JN leave unchanged in every next state, a fault's included: everything but `pc` and the status (R86); one
that faults leaves `pc` too. That `last` is unchanged is the spec's decision D6. -/
def Obligations.JumpFrame : Prop :=
  ∀ (i : Instr) (dir : Dir) (s t : State), i = .jmp dir ∨ i = .jz dir ∨ i = .jn dir → exec i s = .next t →
    t.regs = s.regs ∧ t.last = s.last ∧ t.mbr = s.mbr ∧ t.halted = s.halted ∧ t.input = s.input ∧
    t.output = s.output ∧ t.code.cap = s.code.cap ∧ t.data.cap = s.data.cap ∧
    (t.status = s.status ∨ ∃ op, t.status = .faulted .outOfBounds op ∧ t.pc = s.pc) ∧
    (∀ a : Nat, t.code.byte a = s.code.byte a) ∧ (∀ a : Nat, t.data.byte a = s.data.byte a)

/-- What IN, OUT, NOP and HALT leave unchanged in every next state, a fault's included: every register but IN's destination;
`last` under IN and OUT (the spec's decision D6); the halted flag but under HALT; the input stream but under IN and the output
stream but under OUT; `pc`, `mbr`, every byte of both memories and both capacities (R91 to R94). -/
def Obligations.IoAndSystemFrame : Prop :=
  ∀ (i : Instr) (rn : RegField) (s t : State), i = .inp rn ∨ i = .out rn ∨ i = .nop ∨ i = .halt → exec i s = .next t →
    (∀ n : Fin 8, i = .inp rn ∧ n.val = rn.toNat ∨ t.reg n = s.reg n) ∧
    (i = .nop ∨ i = .halt ∨ t.last = s.last) ∧
    (i = .halt ∨ t.halted = s.halted) ∧
    (i = .inp rn ∨ t.input = s.input) ∧
    (i = .out rn ∨ t.output = s.output) ∧
    (t.status = s.status ∨ ∃ k op, t.status = .faulted k op ∧ (i = .inp rn ∨ i = .out rn) ∧ t.regs = s.regs) ∧
    t.pc = s.pc ∧ t.mbr = s.mbr ∧ t.code.cap = s.code.cap ∧ t.data.cap = s.data.cap ∧
    (∀ a : Nat, t.code.byte a = s.code.byte a) ∧ (∀ a : Nat, t.data.byte a = s.data.byte a)

/-- R16 (that the eight others do not write `last` is the spec's decision D6; that a fault does not is its decision D19): who
writes `last`, over whole steps. After a step it is the destination register's new value when an ALU instruction completed, 0
when NOP or HALT ran, and otherwise what it was. -/
def Obligations.LastAfterStep : Prop :=
  ∀ (s t : State) (i : Instr), s.pc + 4 ≤ s.code.cap → decode (s.code.word s.pc) = .ok i → step s = .next t →
    match i with
    | .add rn _ | .sub rn _ | .and rn _ | .or rn _ | .xor rn _ | .not rn =>
      ((∃ n : Fin 8, n.val = rn.toNat ∧ t.last = t.reg n) ∧ ∀ k op, t.status ≠ .faulted k op) ∨
        ((∃ op, t.status = .faulted .invalidOperand op) ∧ t.last = s.last)
    | .nop | .halt => t.last = 0
    | .mov _ _ | .ldr _ _ | .str _ _ | .jmp _ | .jz _ | .jn _ | .inp _ | .out _ => t.last = s.last

/-- R23, R24: a step takes at most the first item of the input stream, and only when it executes an IN; it appends at most one
record to the output stream, the value of a register, and only when it executes an OUT. -/
def Obligations.StreamsMoveInOrder : Prop :=
  ∀ s t : State, step s = .next t →
    (t.input = s.input ∨
      ((∃ item, s.input = item :: t.input) ∧ ∃ rn, decode (s.code.word s.pc) = .ok (.inp rn))) ∧
    (t.output = s.output ∨
      ∃ (rn : RegField) (n : Fin 8), decode (s.code.word s.pc) = .ok (.out rn) ∧ n.val = rn.toNat ∧
        t.output = s.output ++ [s.reg n])

/-! ## Invariant and reset -/

/-- Every step keeps the invariant: `pc` within 0 to CODE_CAP, status Halted exactly when the flag is set (R26, which the spec
derives), a fault record that is one of the 18 of R103, capacities in the range of R6, and canonical memories. -/
def Obligations.StepKeepsInvariant : Prop :=
  ∀ s t : State, s.Inv → step s = .next t → t.Inv

/-- The invariant holds at reset, and after the host's reset of any machine whose capacities are in the range of R6. -/
def Obligations.InvariantAtReset : Prop :=
  State.reset.Inv ∧
  ∀ (s : State) (items : List InItem), s.code.cap ≤ Config.maxCap → s.data.cap ≤ Config.maxCap → (hostReset s items).Inv

/-- R113: the state right after reset. That `mbr` is 0 is the spec's decision D9, that every byte of both memories is 0 its
decision D10, and the capacities 32 are those of R6's reference configuration; the empty input is the model's choice (log
entry 5). -/
def Obligations.ResetState : Prop :=
  (∀ n : Fin 8, State.reset.reg n = 0) ∧ State.reset.pc = 0 ∧ State.reset.last = 0 ∧ State.reset.halted = false ∧
  State.reset.status = .running ∧ State.reset.mbr = 0 ∧ State.reset.code.cap = 32 ∧ State.reset.data.cap = 32 ∧
  (∀ a : Nat, State.reset.code.byte a = 0) ∧ (∀ a : Nat, State.reset.data.byte a = 0) ∧
  State.reset.input = [] ∧ State.reset.output = []

/-- R114 (the spec's decision D14): the host's reset puts every element at its reset value whatever the state was, so nothing
survives it but the machine's own capacities; the input is the items given. -/
def Obligations.HostResetForgets : Prop :=
  ∀ (s : State) (items : List InItem),
    (∀ n : Fin 8, (hostReset s items).reg n = 0) ∧ (hostReset s items).pc = 0 ∧ (hostReset s items).last = 0 ∧
    (hostReset s items).halted = false ∧ (hostReset s items).status = .running ∧ (hostReset s items).mbr = 0 ∧
    (∀ a : Nat, (hostReset s items).code.byte a = 0) ∧ (∀ a : Nat, (hostReset s items).data.byte a = 0) ∧
    (hostReset s items).code.cap = s.code.cap ∧ (hostReset s items).data.cap = s.data.cap ∧
    (hostReset s items).input = items ∧ (hostReset s items).output = []

/-! ## Loader, run and report -/

/-- R116: `load_program` fails with CapacityExceeded exactly when the words do not fit; otherwise each word reads back at its
address, every byte from `4 * k` on is as it was, nothing but CODE changes, and the start address is 0. -/
def Obligations.LoaderStoresProgram : Prop :=
  ∀ (words : List Word) (s : State),
    (s.code.cap < 4 * words.length → loadProgram words s = .error .capacityExceeded) ∧
    (4 * words.length ≤ s.code.cap →
      ∃ t : State, loadProgram words s = .ok (0, t) ∧ t = { s with code := t.code } ∧ t.code.cap = s.code.cap ∧
        (∀ (i : Nat) (h : i < words.length), t.code.readWord ((4 * i : Nat) : Int) = .ok words[i]) ∧
        (∀ b : Nat, 4 * words.length ≤ b → t.code.byte b = s.code.byte b))

/-- R118, R27, R102: booting a program that fits gives a Running machine at address 0 with the program's words in CODE, the
given input and an empty output, which satisfies the invariant; booting one that does not fit starts no run. That the start
address is always 0 is the spec's decision D22. -/
def Obligations.BootStartsRun : Prop :=
  ∀ (words : List Word) (items : List InItem) (s : State),
    (s.code.cap < 4 * words.length → boot words items s = .error .capacityExceeded) ∧
    (4 * words.length ≤ s.code.cap → s.code.cap ≤ Config.maxCap → s.data.cap ≤ Config.maxCap →
      ∃ t : State, boot words items s = .ok t ∧ t.Inv ∧ t.status = .running ∧ t.pc = 0 ∧ t.input = items ∧ t.output = [] ∧
        ∀ (i : Nat) (h : i < words.length), t.code.readWord ((4 * i : Nat) : Int) = .ok words[i])

/-- R67, R68: a run ends exactly in a state that is Halted or Faulted, whose final report exists; a run is never stopped by a
fault of the model's own nor by an instruction without meaning; and a machine that waits does so in a Running state with an
exhausted input (the spec's decision D12). -/
def Obligations.RunEndsInTerminalState : Prop :=
  ∀ (fuel : Nat) (s : State),
    (∀ t, runLoop fuel s = .terminal t → t.status ≠ .running ∧ (finalReport t).isSome = true) ∧
    (∀ t, runLoop fuel s = .waiting t → t.status = .running ∧ t.input = []) ∧
    (∀ r t, runLoop fuel s ≠ .stopped r t) ∧ (∀ r t, runLoop fuel s ≠ .refused r t)

/-- R29: the final report of a terminal state is its `last`, `halted`, `mbr`, `pc` and registers, with the fault's pair in the
Faulted case; a Running machine has none. -/
def Obligations.FinalReportReadsState : Prop :=
  ∀ s : State,
    (s.status = .running → finalReport s = none) ∧
    (s.status = .halted → finalReport s = some ⟨s.last, s.halted, s.mbr, s.pc, s.regs, none⟩) ∧
    (∀ (k : FaultKind) (op : OpName), s.status = .faulted k op →
      finalReport s = some ⟨s.last, s.halted, s.mbr, s.pc, s.regs, some (k, op)⟩)
end

