-- ==== Sys2Proof/Laws/State.lean ====
section
/-! SUPPORT. What each update of the state leaves in each field: one lemma per field per update. -/

namespace Sys2Proof.Machine

@[simp] theorem params_arithOverflow : params.arithOverflow = .wrap := rfl
@[simp] theorem params_moveWritesLast : params.moveWritesLast = false := rfl

@[simp] theorem State.setReg_regs (s : State) (n : Fin 8) (v : Word) : (s.setReg n v).regs = s.regs.set n v := rfl
@[simp] theorem State.setReg_pc (s : State) (n : Fin 8) (v : Word) : (s.setReg n v).pc = s.pc := rfl
@[simp] theorem State.setReg_last (s : State) (n : Fin 8) (v : Word) : (s.setReg n v).last = s.last := rfl
@[simp] theorem State.setReg_halted (s : State) (n : Fin 8) (v : Word) : (s.setReg n v).halted = s.halted := rfl
@[simp] theorem State.setReg_status (s : State) (n : Fin 8) (v : Word) : (s.setReg n v).status = s.status := rfl
@[simp] theorem State.setReg_mbr (s : State) (n : Fin 8) (v : Word) : (s.setReg n v).mbr = s.mbr := rfl
@[simp] theorem State.setReg_code (s : State) (n : Fin 8) (v : Word) : (s.setReg n v).code = s.code := rfl
@[simp] theorem State.setReg_data (s : State) (n : Fin 8) (v : Word) : (s.setReg n v).data = s.data := rfl
@[simp] theorem State.setReg_input (s : State) (n : Fin 8) (v : Word) : (s.setReg n v).input = s.input := rfl
@[simp] theorem State.setReg_output (s : State) (n : Fin 8) (v : Word) : (s.setReg n v).output = s.output := rfl

@[simp] theorem State.setLast_regs (s : State) (v : Word) : (s.setLast v).regs = s.regs := rfl
@[simp] theorem State.setLast_pc (s : State) (v : Word) : (s.setLast v).pc = s.pc := rfl
@[simp] theorem State.setLast_last (s : State) (v : Word) : (s.setLast v).last = v := rfl
@[simp] theorem State.setLast_halted (s : State) (v : Word) : (s.setLast v).halted = s.halted := rfl
@[simp] theorem State.setLast_status (s : State) (v : Word) : (s.setLast v).status = s.status := rfl
@[simp] theorem State.setLast_mbr (s : State) (v : Word) : (s.setLast v).mbr = s.mbr := rfl
@[simp] theorem State.setLast_code (s : State) (v : Word) : (s.setLast v).code = s.code := rfl
@[simp] theorem State.setLast_data (s : State) (v : Word) : (s.setLast v).data = s.data := rfl
@[simp] theorem State.setLast_input (s : State) (v : Word) : (s.setLast v).input = s.input := rfl
@[simp] theorem State.setLast_output (s : State) (v : Word) : (s.setLast v).output = s.output := rfl

@[simp] theorem State.writeResult_regs (s : State) (n : Fin 8) (v : Word) : (s.writeResult n v).regs = s.regs.set n v := rfl
@[simp] theorem State.writeResult_pc (s : State) (n : Fin 8) (v : Word) : (s.writeResult n v).pc = s.pc := rfl
@[simp] theorem State.writeResult_last (s : State) (n : Fin 8) (v : Word) : (s.writeResult n v).last = v := rfl
@[simp] theorem State.writeResult_halted (s : State) (n : Fin 8) (v : Word) : (s.writeResult n v).halted = s.halted := rfl
@[simp] theorem State.writeResult_status (s : State) (n : Fin 8) (v : Word) : (s.writeResult n v).status = s.status := rfl
@[simp] theorem State.writeResult_mbr (s : State) (n : Fin 8) (v : Word) : (s.writeResult n v).mbr = s.mbr := rfl
@[simp] theorem State.writeResult_code (s : State) (n : Fin 8) (v : Word) : (s.writeResult n v).code = s.code := rfl
@[simp] theorem State.writeResult_data (s : State) (n : Fin 8) (v : Word) : (s.writeResult n v).data = s.data := rfl
@[simp] theorem State.writeResult_input (s : State) (n : Fin 8) (v : Word) : (s.writeResult n v).input = s.input := rfl
@[simp] theorem State.writeResult_output (s : State) (n : Fin 8) (v : Word) : (s.writeResult n v).output = s.output := rfl

@[simp] theorem State.writeMoved_regs (s : State) (n : Fin 8) (v : Word) : (s.writeMoved n v).regs = s.regs.set n v := rfl
@[simp] theorem State.writeMoved_pc (s : State) (n : Fin 8) (v : Word) : (s.writeMoved n v).pc = s.pc := rfl
@[simp] theorem State.writeMoved_last (s : State) (n : Fin 8) (v : Word) : (s.writeMoved n v).last = s.last := rfl
@[simp] theorem State.writeMoved_halted (s : State) (n : Fin 8) (v : Word) : (s.writeMoved n v).halted = s.halted := rfl
@[simp] theorem State.writeMoved_status (s : State) (n : Fin 8) (v : Word) : (s.writeMoved n v).status = s.status := rfl
@[simp] theorem State.writeMoved_mbr (s : State) (n : Fin 8) (v : Word) : (s.writeMoved n v).mbr = s.mbr := rfl
@[simp] theorem State.writeMoved_code (s : State) (n : Fin 8) (v : Word) : (s.writeMoved n v).code = s.code := rfl
@[simp] theorem State.writeMoved_data (s : State) (n : Fin 8) (v : Word) : (s.writeMoved n v).data = s.data := rfl
@[simp] theorem State.writeMoved_input (s : State) (n : Fin 8) (v : Word) : (s.writeMoved n v).input = s.input := rfl
@[simp] theorem State.writeMoved_output (s : State) (n : Fin 8) (v : Word) : (s.writeMoved n v).output = s.output := rfl

@[simp] theorem State.setPc_regs (s : State) (a : Nat) : (s.setPc a).regs = s.regs := rfl
@[simp] theorem State.setPc_pc (s : State) (a : Nat) : (s.setPc a).pc = a := rfl
@[simp] theorem State.setPc_last (s : State) (a : Nat) : (s.setPc a).last = s.last := rfl
@[simp] theorem State.setPc_halted (s : State) (a : Nat) : (s.setPc a).halted = s.halted := rfl
@[simp] theorem State.setPc_status (s : State) (a : Nat) : (s.setPc a).status = s.status := rfl
@[simp] theorem State.setPc_mbr (s : State) (a : Nat) : (s.setPc a).mbr = s.mbr := rfl
@[simp] theorem State.setPc_code (s : State) (a : Nat) : (s.setPc a).code = s.code := rfl
@[simp] theorem State.setPc_data (s : State) (a : Nat) : (s.setPc a).data = s.data := rfl
@[simp] theorem State.setPc_input (s : State) (a : Nat) : (s.setPc a).input = s.input := rfl
@[simp] theorem State.setPc_output (s : State) (a : Nat) : (s.setPc a).output = s.output := rfl

@[simp] theorem State.outPush_regs (s : State) (v : Word) : (s.outPush v).regs = s.regs := rfl
@[simp] theorem State.outPush_pc (s : State) (v : Word) : (s.outPush v).pc = s.pc := rfl
@[simp] theorem State.outPush_last (s : State) (v : Word) : (s.outPush v).last = s.last := rfl
@[simp] theorem State.outPush_halted (s : State) (v : Word) : (s.outPush v).halted = s.halted := rfl
@[simp] theorem State.outPush_status (s : State) (v : Word) : (s.outPush v).status = s.status := rfl
@[simp] theorem State.outPush_mbr (s : State) (v : Word) : (s.outPush v).mbr = s.mbr := rfl
@[simp] theorem State.outPush_code (s : State) (v : Word) : (s.outPush v).code = s.code := rfl
@[simp] theorem State.outPush_data (s : State) (v : Word) : (s.outPush v).data = s.data := rfl
@[simp] theorem State.outPush_input (s : State) (v : Word) : (s.outPush v).input = s.input := rfl
@[simp] theorem State.outPush_output (s : State) (v : Word) : (s.outPush v).output = s.output ++ [v] := rfl

@[simp] theorem State.deliver_regs (s : State) (items : List InItem) : (s.deliver items).regs = s.regs := rfl
@[simp] theorem State.deliver_pc (s : State) (items : List InItem) : (s.deliver items).pc = s.pc := rfl
@[simp] theorem State.deliver_last (s : State) (items : List InItem) : (s.deliver items).last = s.last := rfl
@[simp] theorem State.deliver_halted (s : State) (items : List InItem) : (s.deliver items).halted = s.halted := rfl
@[simp] theorem State.deliver_status (s : State) (items : List InItem) : (s.deliver items).status = s.status := rfl
@[simp] theorem State.deliver_mbr (s : State) (items : List InItem) : (s.deliver items).mbr = s.mbr := rfl
@[simp] theorem State.deliver_code (s : State) (items : List InItem) : (s.deliver items).code = s.code := rfl
@[simp] theorem State.deliver_data (s : State) (items : List InItem) : (s.deliver items).data = s.data := rfl
@[simp] theorem State.deliver_input (s : State) (items : List InItem) : (s.deliver items).input = s.input ++ items := rfl
@[simp] theorem State.deliver_output (s : State) (items : List InItem) : (s.deliver items).output = s.output := rfl

@[simp] theorem State.raiseFault_regs (s : State) (k : FaultKind) (op : OpName) : (s.raiseFault k op).regs = s.regs := rfl
@[simp] theorem State.raiseFault_pc (s : State) (k : FaultKind) (op : OpName) : (s.raiseFault k op).pc = s.pc := rfl
@[simp] theorem State.raiseFault_last (s : State) (k : FaultKind) (op : OpName) : (s.raiseFault k op).last = s.last := rfl
@[simp] theorem State.raiseFault_halted (s : State) (k : FaultKind) (op : OpName) : (s.raiseFault k op).halted = s.halted := rfl
@[simp] theorem State.raiseFault_status (s : State) (k : FaultKind) (op : OpName) : (s.raiseFault k op).status = .faulted k op := rfl
@[simp] theorem State.raiseFault_mbr (s : State) (k : FaultKind) (op : OpName) : (s.raiseFault k op).mbr = s.mbr := rfl
@[simp] theorem State.raiseFault_code (s : State) (k : FaultKind) (op : OpName) : (s.raiseFault k op).code = s.code := rfl
@[simp] theorem State.raiseFault_data (s : State) (k : FaultKind) (op : OpName) : (s.raiseFault k op).data = s.data := rfl
@[simp] theorem State.raiseFault_input (s : State) (k : FaultKind) (op : OpName) : (s.raiseFault k op).input = s.input := rfl
@[simp] theorem State.raiseFault_output (s : State) (k : FaultKind) (op : OpName) : (s.raiseFault k op).output = s.output := rfl

@[simp] theorem State.setMem_code_regs (s : State) (m : Memory) : (s.setMem .code m).regs = s.regs := rfl
@[simp] theorem State.setMem_code_pc (s : State) (m : Memory) : (s.setMem .code m).pc = s.pc := rfl
@[simp] theorem State.setMem_code_last (s : State) (m : Memory) : (s.setMem .code m).last = s.last := rfl
@[simp] theorem State.setMem_code_halted (s : State) (m : Memory) : (s.setMem .code m).halted = s.halted := rfl
@[simp] theorem State.setMem_code_status (s : State) (m : Memory) : (s.setMem .code m).status = s.status := rfl
@[simp] theorem State.setMem_code_mbr (s : State) (m : Memory) : (s.setMem .code m).mbr = s.mbr := rfl
@[simp] theorem State.setMem_code_code (s : State) (m : Memory) : (s.setMem .code m).code = m := rfl
@[simp] theorem State.setMem_code_data (s : State) (m : Memory) : (s.setMem .code m).data = s.data := rfl
@[simp] theorem State.setMem_code_input (s : State) (m : Memory) : (s.setMem .code m).input = s.input := rfl
@[simp] theorem State.setMem_code_output (s : State) (m : Memory) : (s.setMem .code m).output = s.output := rfl

@[simp] theorem State.setMem_data_regs (s : State) (m : Memory) : (s.setMem .data m).regs = s.regs := rfl
@[simp] theorem State.setMem_data_pc (s : State) (m : Memory) : (s.setMem .data m).pc = s.pc := rfl
@[simp] theorem State.setMem_data_last (s : State) (m : Memory) : (s.setMem .data m).last = s.last := rfl
@[simp] theorem State.setMem_data_halted (s : State) (m : Memory) : (s.setMem .data m).halted = s.halted := rfl
@[simp] theorem State.setMem_data_status (s : State) (m : Memory) : (s.setMem .data m).status = s.status := rfl
@[simp] theorem State.setMem_data_mbr (s : State) (m : Memory) : (s.setMem .data m).mbr = s.mbr := rfl
@[simp] theorem State.setMem_data_code (s : State) (m : Memory) : (s.setMem .data m).code = s.code := rfl
@[simp] theorem State.setMem_data_data (s : State) (m : Memory) : (s.setMem .data m).data = m := rfl
@[simp] theorem State.setMem_data_input (s : State) (m : Memory) : (s.setMem .data m).input = s.input := rfl
@[simp] theorem State.setMem_data_output (s : State) (m : Memory) : (s.setMem .data m).output = s.output := rfl

@[simp] theorem advance_regs (s : State) : (advance s).regs = s.regs := rfl
@[simp] theorem advance_pc (s : State) : (advance s).pc = s.pc + 4 := rfl
@[simp] theorem advance_last (s : State) : (advance s).last = s.last := rfl
@[simp] theorem advance_halted (s : State) : (advance s).halted = s.halted := rfl
@[simp] theorem advance_status (s : State) : (advance s).status = s.status := rfl
@[simp] theorem advance_mbr (s : State) : (advance s).mbr = s.mbr := rfl
@[simp] theorem advance_code (s : State) : (advance s).code = s.code := rfl
@[simp] theorem advance_data (s : State) : (advance s).data = s.data := rfl
@[simp] theorem advance_input (s : State) : (advance s).input = s.input := rfl
@[simp] theorem advance_output (s : State) : (advance s).output = s.output := rfl

@[simp] theorem State.mem_code (s : State) : s.mem .code = s.code := rfl
@[simp] theorem State.mem_data (s : State) : s.mem .data = s.data := rfl

/-- A register reads as written, and every other register as before (R13). -/
theorem State.reg_setReg (s : State) (n m : Fin 8) (v : Word) :
    (s.setReg n v).reg m = if m = n then v else s.reg m := by
  have e : (m = n) ↔ ((n : Nat) = (m : Nat)) := by rw [Fin.ext_iff, eq_comm]
  simp only [State.reg, State.setReg_regs, Fin.getElem_fin, Vector.getElem_set, e]

/-- The halt test changes the status alone (R66). -/
theorem haltTest_eq (s : State) :
    haltTest s = { s with status := if s.status = .running ∧ s.halted = true then .halted else s.status } := by
  unfold haltTest
  split <;> rfl

@[simp] theorem haltTest_regs (s : State) : (haltTest s).regs = s.regs := by rw [haltTest_eq]
@[simp] theorem haltTest_pc (s : State) : (haltTest s).pc = s.pc := by rw [haltTest_eq]
@[simp] theorem haltTest_last (s : State) : (haltTest s).last = s.last := by rw [haltTest_eq]
@[simp] theorem haltTest_halted (s : State) : (haltTest s).halted = s.halted := by rw [haltTest_eq]
@[simp] theorem haltTest_mbr (s : State) : (haltTest s).mbr = s.mbr := by rw [haltTest_eq]
@[simp] theorem haltTest_code (s : State) : (haltTest s).code = s.code := by rw [haltTest_eq]
@[simp] theorem haltTest_data (s : State) : (haltTest s).data = s.data := by rw [haltTest_eq]
@[simp] theorem haltTest_input (s : State) : (haltTest s).input = s.input := by rw [haltTest_eq]
@[simp] theorem haltTest_output (s : State) : (haltTest s).output = s.output := by rw [haltTest_eq]

end Sys2Proof.Machine
end

