-- ==== Sys2Proof/Laws/Memory.lean ====
section
/-! SUPPORT. Bytes and words of a memory: a byte reads as last written, every other byte as before, and every operation
keeps the canonical form. -/

namespace Sys2Proof.Machine

/-! ## Lists of cells -/

theorem cellsGet_erase (cs : List Host.Cell) (a b : Nat) :
    cellsGet (cellsErase cs a) b = if b = a then unlistedByte else cellsGet cs b := by
  induction cs with
  | nil => simp [cellsErase, cellsGet]
  | cons c cs ih =>
    obtain ⟨x, v⟩ := c
    by_cases hx : x = a
    · simp only [cellsErase, hx, if_true, ih, cellsGet]
      by_cases hb : b = a
      · simp [hb]
      · simp [hb, Ne.symm hb]
    · simp only [cellsErase, hx, if_false, cellsGet, ih]
      by_cases hb : x = b
      · subst hb; simp [hx]
      · simp [hb]

theorem cellsGet_insert (cs : List Host.Cell) (a b : Nat) (v : Byte) (h : cellsGet cs a = unlistedByte)
    (he : cellsErase cs a = cs) : cellsGet (cellsInsert cs a v) b = if b = a then v else cellsGet cs b := by
  induction cs with
  | nil => simp [cellsInsert, cellsGet, eq_comm]
  | cons c cs ih =>
    obtain ⟨x, w⟩ := c
    have hx : x ≠ a := by
      intro hx
      have hl : ∀ l : List Host.Cell, (cellsErase l a).length ≤ l.length := by
        intro l
        induction l with
        | nil => simp [cellsErase]
        | cons d l ihl =>
          obtain ⟨y, u⟩ := d
          by_cases hy : y = a <;> simp [cellsErase, hy] <;> omega
      have := congrArg List.length he
      have hcs := hl cs
      simp [cellsErase, hx] at this
      omega
    simp only [cellsErase, hx, if_false, List.cons.injEq, true_and] at he
    simp only [cellsGet, hx, if_false] at h
    by_cases hlt : a < x
    · simp only [cellsInsert, hlt, if_true, cellsGet, eq_comm]
    · simp only [cellsInsert, hlt, if_false, cellsGet, ih h he]
      by_cases hb : x = b
      · subst hb; simp [hx]
      · simp [hb]

theorem cellsErase_idem (cs : List Host.Cell) (a : Nat) : cellsErase (cellsErase cs a) a = cellsErase cs a := by
  induction cs with
  | nil => rfl
  | cons c cs ih =>
    obtain ⟨x, v⟩ := c
    by_cases hx : x = a <;> simp [cellsErase, hx, ih]

/-- In every list of cells, canonical or not, a byte reads as last written and every other byte as before. -/
theorem cellsGet_set (cs : List Host.Cell) (a b : Nat) (v : Byte) :
    cellsGet (cellsSet cs a v) b = if b = a then v else cellsGet cs b := by
  by_cases hv : v = unlistedByte
  · simp [cellsSet, hv, cellsGet_erase]
  · simp only [cellsSet, hv, if_false]
    rw [cellsGet_insert _ _ _ _ (by simp [cellsGet_erase]) (cellsErase_idem cs a), cellsGet_erase]
    by_cases hb : b = a <;> simp [hb]

theorem cellsWf_mono {lo lo' cap : Nat} (cs : List Host.Cell) (h : lo' ≤ lo) (hw : cellsWf lo cap cs = true) :
    cellsWf lo' cap cs = true := by
  cases cs with
  | nil => rfl
  | cons c cs =>
    obtain ⟨x, v⟩ := c
    simp only [cellsWf, Bool.and_eq_true, decide_eq_true_eq] at hw ⊢
    exact ⟨⟨⟨le_trans h hw.1.1.1, hw.1.1.2⟩, hw.1.2⟩, hw.2⟩

theorem cellsWf_erase {lo cap : Nat} (cs : List Host.Cell) (a : Nat) (hw : cellsWf lo cap cs = true) :
    cellsWf lo cap (cellsErase cs a) = true := by
  induction cs generalizing lo with
  | nil => rfl
  | cons c cs ih =>
    obtain ⟨x, v⟩ := c
    simp only [cellsWf, Bool.and_eq_true, decide_eq_true_eq] at hw
    obtain ⟨⟨⟨h1, h2⟩, h3⟩, h4⟩ := hw
    by_cases hx : x = a
    · simp only [cellsErase, hx, if_true]
      exact cellsWf_mono _ (by omega) (ih h4)
    · simp only [cellsErase, hx, if_false, cellsWf, Bool.and_eq_true, decide_eq_true_eq]
      exact ⟨⟨⟨h1, h2⟩, h3⟩, ih h4⟩

theorem cellsWf_insert {lo cap : Nat} (cs : List Host.Cell) (a : Nat) (v : Byte) (hlo : lo ≤ a) (hcap : a < cap)
    (hv : v ≠ unlistedByte) (he : cellsErase cs a = cs) (hw : cellsWf lo cap cs = true) :
    cellsWf lo cap (cellsInsert cs a v) = true := by
  induction cs generalizing lo with
  | nil => simp [cellsInsert, cellsWf, hlo, hcap, hv]
  | cons c cs ih =>
    obtain ⟨x, w⟩ := c
    have hx : x ≠ a := by
      intro hx
      have hg := cellsGet_erase ((x, w) :: cs) a a
      rw [he] at hg
      simp only [cellsWf, Bool.and_eq_true, decide_eq_true_eq] at hw
      simp only [cellsGet, hx, if_true] at hg
      exact hw.1.2 hg
    simp only [cellsErase, hx, if_false, List.cons.injEq, true_and] at he
    simp only [cellsWf, Bool.and_eq_true, decide_eq_true_eq] at hw
    obtain ⟨⟨⟨h1, h2⟩, h3⟩, h4⟩ := hw
    by_cases hlt : a < x
    · simp only [cellsInsert, hlt, if_true, cellsWf, Bool.and_eq_true, decide_eq_true_eq]
      exact ⟨⟨⟨hlo, hcap⟩, hv⟩, ⟨⟨⟨by omega, h2⟩, h3⟩, h4⟩⟩
    · simp only [cellsInsert, hlt, if_false, cellsWf, Bool.and_eq_true, decide_eq_true_eq]
      exact ⟨⟨⟨h1, h2⟩, h3⟩, ih (by omega) he h4⟩

theorem cellsWf_set {cap : Nat} (cs : List Host.Cell) (a : Nat) (v : Byte) (hcap : a < cap)
    (hw : cellsWf 0 cap cs = true) : cellsWf 0 cap (cellsSet cs a v) = true := by
  by_cases hv : v = unlistedByte
  · simpa [cellsSet, hv] using cellsWf_erase cs a hw
  · simp only [cellsSet, hv, if_false]
    exact cellsWf_insert _ a v (Nat.zero_le a) hcap hv (cellsErase_idem cs a) (cellsWf_erase cs a hw)

/-! ## Memories -/

@[simp] theorem Memory.setByte_cap (m : Memory) (a : Nat) (v : Byte) : (m.setByte a v).cap = m.cap := rfl
@[simp] theorem Memory.setWord_cap (m : Memory) (a : Nat) (v : Word) : (m.setWord a v).cap = m.cap := rfl

theorem Memory.byte_setByte (m : Memory) (a b : Nat) (v : Byte) :
    (m.setByte a v).byte b = if b = a then v else m.byte b := cellsGet_set m.cells a b v

/-- The bytes after a word is stored: its four bytes, least significant first, and every other byte as before (R33, R35). -/
theorem Memory.byte_setWord (m : Memory) (a b : Nat) (v : Word) :
    (m.setWord a v).byte b =
      if b = a then byteOfWord v 0 else if b = a + 1 then byteOfWord v 1
      else if b = a + 2 then byteOfWord v 2 else if b = a + 3 then byteOfWord v 3 else m.byte b := by
  simp only [Memory.setWord, Memory.byte_setByte]
  split_ifs <;> first | rfl | omega

/-- Storing a byte inside the space keeps the canonical form. -/
theorem Memory.wf_setByte {m : Memory} (a : Nat) (v : Byte) (ha : a < m.cap) (hw : m.wf = true) :
    (m.setByte a v).wf = true := cellsWf_set m.cells a v ha hw

/-- Storing a word inside the space keeps the canonical form. -/
theorem Memory.wf_setWord {m : Memory} (a : Nat) (v : Word) (ha : a + 4 ≤ m.cap) (hw : m.wf = true) :
    (m.setWord a v).wf = true := by
  refine wf_setByte _ _ ?_ (wf_setByte _ _ ?_ (wf_setByte _ _ ?_ (wf_setByte _ _ ?_ hw))) <;>
    (try simp only [Memory.setByte_cap]) <;> omega

theorem Memory.inBounds_iff (m : Memory) (a : Int) : m.inBounds a = true ↔ 0 ≤ a ∧ a + 4 ≤ (m.cap : Int) := by
  simp [Memory.inBounds]

/-- Everything `read_word` can answer (R31, R32). -/
theorem Memory.readWord_ok_iff (m : Memory) (a : Int) (w : Word) :
    m.readWord a = .ok w ↔ (0 ≤ a ∧ a + 4 ≤ (m.cap : Int)) ∧ w = m.word a.toNat := by
  unfold Memory.readWord
  rw [← Memory.inBounds_iff]
  by_cases h : m.inBounds a = true <;> simp [h, eq_comm]

theorem Memory.readWord_error_iff (m : Memory) (a : Int) (k : FaultKind) :
    m.readWord a = .error k ↔ ¬ (0 ≤ a ∧ a + 4 ≤ (m.cap : Int)) ∧ k = .outOfBounds := by
  unfold Memory.readWord
  rw [← Memory.inBounds_iff]
  by_cases h : m.inBounds a = true <;> simp [h, eq_comm]

/-- Everything `write_word` can answer (R31, R33, R38). -/
theorem Memory.writeWord_ok_iff (m : Memory) (a : Int) (v : Word) (m' : Memory) :
    m.writeWord a v = .ok m' ↔ (0 ≤ a ∧ a + 4 ≤ (m.cap : Int)) ∧ m' = m.setWord a.toNat v := by
  unfold Memory.writeWord
  rw [← Memory.inBounds_iff]
  by_cases h : m.inBounds a = true <;> simp [h, eq_comm]

theorem Memory.writeWord_error_iff (m : Memory) (a : Int) (v : Word) (k : FaultKind) :
    m.writeWord a v = .error k ↔ ¬ (0 ≤ a ∧ a + 4 ≤ (m.cap : Int)) ∧ k = .outOfBounds := by
  unfold Memory.writeWord
  rw [← Memory.inBounds_iff]
  by_cases h : m.inBounds a = true <;> simp [h, eq_comm]

/-- Every write that `write_word` makes keeps the canonical form and the capacity. -/
theorem Memory.wf_writeWord {m m' : Memory} {a : Int} {v : Word} (h : m.writeWord a v = .ok m') (hw : m.wf = true) :
    m'.wf = true ∧ m'.cap = m.cap := by
  obtain ⟨hb, rfl⟩ := (m.writeWord_ok_iff a v m').1 h
  exact ⟨wf_setWord _ _ (by omega) hw, rfl⟩

/-- The memories at reset are canonical. -/
theorem reset_code_wf : State.reset.code.wf = true := by decide
theorem reset_data_wf : State.reset.data.wf = true := by decide

end Sys2Proof.Machine
end

