-- ==== Sys2Proof/Laws/Ops.lean ====
section
/-! SUPPORT. What each shared operation can do, said once: the operand forms, the memory accesses, the streams, the loader and
the cycle. -/

namespace Sys2Proof.Machine

/-! ## Operand forms -/

theorem regOperand_valid {r : RegField} (h : r.toNat < 8) : regOperand r = .ok ⟨r.toNat, h⟩ := by
  simp [regOperand, h]

theorem regOperand_invalid {r : RegField} (h : ¬ r.toNat < 8) : regOperand r = .error .invalidOperand := by
  simp [regOperand, h]

/-- Form R with a valid register goes on with it (R54). -/
theorem formR_valid {op : OpName} {rn : RegField} {s : State} {k : Fin 8 → Answer} (h : rn.toNat < 8) :
    formR op rn s k = k ⟨rn.toNat, h⟩ := by
  simp [formR, orFail, regOperand_valid h]

/-- Form R with a register field of 8 to 15 raises InvalidOperand (R99). -/
theorem formR_invalid {op : OpName} {rn : RegField} {s : State} {k : Fin 8 → Answer} (h : ¬ rn.toNat < 8) :
    formR op rn s k = failWith .invalidOperand op s := by
  simp [formR, orFail, regOperand_invalid h]

/-- Form RR with two valid registers goes on with them (R54). -/
theorem formRR_valid {op : OpName} {rn rm : RegField} {s : State} {k : Fin 8 → Fin 8 → Answer} (hn : rn.toNat < 8)
    (hm : rm.toNat < 8) : formRR op rn rm s k = k ⟨rn.toNat, hn⟩ ⟨rm.toNat, hm⟩ := by
  simp [formRR, formR_valid hn, formR_valid hm]

/-- Form RR with a register field of 8 to 15 raises InvalidOperand (R99). -/
theorem formRR_invalid {op : OpName} {rn rm : RegField} {s : State} {k : Fin 8 → Fin 8 → Answer}
    (h : ¬ (rn.toNat < 8 ∧ rm.toNat < 8)) : formRR op rn rm s k = failWith .invalidOperand op s := by
  by_cases hn : rn.toNat < 8
  · simp [formRR, formR_valid hn, formR_invalid (fun hm => h ⟨hn, hm⟩)]
  · simp [formRR, formR_invalid hn]

/-- Form D with a target inside CODE goes on with it (R86). -/
theorem formD_valid {op : OpName} {dir : Dir} {s : State} {k : Nat → Answer} (h : dir.toNat + 4 ≤ s.code.cap) :
    formD op dir s k = k dir.toNat := by
  have hb : s.code.inBounds (dir.toNat : Int) = true := by rw [Memory.inBounds_iff]; omega
  simp [formD, orFail, jumpTarget, hb]

/-- Form D with a target outside CODE raises OutOfBounds (R86). -/
theorem formD_invalid {op : OpName} {dir : Dir} {s : State} {k : Nat → Answer} (h : ¬ dir.toNat + 4 ≤ s.code.cap) :
    formD op dir s k = failWith .outOfBounds op s := by
  have hb : ¬ s.code.inBounds (dir.toNat : Int) = true := by rw [Memory.inBounds_iff]; omega
  simp [formD, orFail, jumpTarget, hb]

/-- Everything form R can answer. -/
theorem formR_cases (op : OpName) (rn : RegField) (s : State) (k : Fin 8 → Answer) :
    (∃ n : Fin 8, n.val = rn.toNat ∧ formR op rn s k = k n) ∨
      (8 ≤ rn.toNat ∧ formR op rn s k = failWith .invalidOperand op s) := by
  by_cases h : rn.toNat < 8
  · exact .inl ⟨⟨rn.toNat, h⟩, rfl, formR_valid h⟩
  · exact .inr ⟨by omega, formR_invalid h⟩

/-- Everything form RR can answer. -/
theorem formRR_cases (op : OpName) (rn rm : RegField) (s : State) (k : Fin 8 → Fin 8 → Answer) :
    (∃ n m : Fin 8, n.val = rn.toNat ∧ m.val = rm.toNat ∧ formRR op rn rm s k = k n m) ∨
      ((8 ≤ rn.toNat ∨ 8 ≤ rm.toNat) ∧ formRR op rn rm s k = failWith .invalidOperand op s) := by
  by_cases h : rn.toNat < 8 ∧ rm.toNat < 8
  · exact .inl ⟨⟨rn.toNat, h.1⟩, ⟨rm.toNat, h.2⟩, rfl, rfl, formRR_valid h.1 h.2⟩
  · exact .inr ⟨by omega, formRR_invalid h⟩

/-- Everything form D can answer. -/
theorem formD_cases (op : OpName) (dir : Dir) (s : State) (k : Nat → Answer) :
    (dir.toNat + 4 ≤ s.code.cap ∧ formD op dir s k = k dir.toNat) ∨
      (s.code.cap < dir.toNat + 4 ∧ formD op dir s k = failWith .outOfBounds op s) := by
  by_cases h : dir.toNat + 4 ≤ s.code.cap
  · exact .inl ⟨h, formD_valid h⟩
  · exact .inr ⟨by omega, formD_invalid h⟩

/-! ## Memory accesses of a state -/

/-- Everything `MemRead` can answer (R31, R32). -/
theorem memRead_cases (s : State) (sp : Space) (a : Int) :
    ((0 ≤ a ∧ a + 4 ≤ ((s.mem sp).cap : Int)) ∧ s.memRead sp a = .ok ((s.mem sp).word a.toNat)) ∨
      (¬ (0 ≤ a ∧ a + 4 ≤ ((s.mem sp).cap : Int)) ∧ s.memRead sp a = .error .outOfBounds) := by
  by_cases h : 0 ≤ a ∧ a + 4 ≤ ((s.mem sp).cap : Int)
  · exact .inl ⟨h, ((s.mem sp).readWord_ok_iff a _).2 ⟨h, rfl⟩⟩
  · exact .inr ⟨h, ((s.mem sp).readWord_error_iff a _).2 ⟨h, rfl⟩⟩

/-- Everything `MemWrite` can answer (R31, R33, R38). -/
theorem memWrite_cases (s : State) (sp : Space) (a : Int) (v : Word) :
    ((0 ≤ a ∧ a + 4 ≤ ((s.mem sp).cap : Int)) ∧
        s.memWrite sp a v = .ok (s.setMem sp ((s.mem sp).setWord a.toNat v))) ∨
      (¬ (0 ≤ a ∧ a + 4 ≤ ((s.mem sp).cap : Int)) ∧ s.memWrite sp a v = .error .outOfBounds) := by
  by_cases h : 0 ≤ a ∧ a + 4 ≤ ((s.mem sp).cap : Int)
  · exact .inl ⟨h, by simp only [State.memWrite, ((s.mem sp).writeWord_ok_iff a v _).2 ⟨h, rfl⟩]⟩
  · exact .inr ⟨h, by simp only [State.memWrite, ((s.mem sp).writeWord_error_iff a v _).2 ⟨h, rfl⟩]⟩

/-! ## The input stream -/

/-- Everything `InPop` can answer (R23). -/
theorem inPop_cases (s : State) :
    (s.input = [] ∧ s.inPop = none) ∨
      ∃ item rest, s.input = item :: rest ∧ s.inPop = some (item, { s with input := rest }) := by
  unfold State.inPop
  cases h : s.input with
  | nil => exact .inl ⟨rfl, rfl⟩
  | cons item rest => exact .inr ⟨item, rest, rfl, rfl⟩

/-! ## ALU results -/

@[simp] theorem arithResult_wrap (z : Int) : arithResult .wrap z = some (wrap32 z) := rfl

/-- The wrapped sum of the signed values is the sum of the patterns (R80). -/
theorem wrap32_add (a b : Word) : wrap32 (signed a + signed b) = a + b := by
  simp [wrap32, signed, BitVec.ofInt_add]

/-- The wrapped difference of the signed values is the difference of the patterns (R80). -/
theorem wrap32_sub (a b : Word) : wrap32 (signed a - signed b) = a - b := by
  apply BitVec.eq_of_toInt_eq
  simp [wrap32, signed, BitVec.toInt_sub]

/-! ## The loader -/

@[simp] theorem storeWords_cap (m : Memory) (a : Nat) (ws : List Word) : (storeWords m a ws).cap = m.cap := by
  induction ws generalizing m a with
  | nil => rfl
  | cons w ws ih => simp [storeWords, ih]

/-- Loading words that fit keeps the canonical form. -/
theorem storeWords_wf (m : Memory) (a : Nat) (ws : List Word) (h : a + 4 * ws.length ≤ m.cap) (hw : m.wf = true) :
    (storeWords m a ws).wf = true := by
  induction ws generalizing m a with
  | nil => exact hw
  | cons w ws ih =>
    simp only [List.length_cons] at h
    exact ih _ _ (by rw [Memory.setWord_cap]; omega) (Memory.wf_setWord a w (by omega) hw)

/-- The loader stores nothing below the address it starts from. -/
theorem storeWords_byte_below (m : Memory) (a b : Nat) (ws : List Word) (h : b < a) :
    (storeWords m a ws).byte b = m.byte b := by
  induction ws generalizing m a with
  | nil => rfl
  | cons w ws ih =>
    rw [storeWords, ih _ _ (by omega), Memory.byte_setWord]
    split_ifs <;> first | rfl | omega

/-! ## The cycle -/

/-- Everything a fetch can answer (R63, R70). -/
theorem fetch_cases (s : State) :
    (s.pc + 4 ≤ s.code.cap ∧ fetch s = .ok (s.code.word s.pc, { s with mbr := s.code.word s.pc })) ∨
      (s.code.cap < s.pc + 4 ∧ fetch s = .error .outOfBounds) := by
  unfold fetch
  rcases memRead_cases s .code (s.pc : Int) with ⟨h, hr⟩ | ⟨h, hr⟩
  · refine .inl ⟨by simp only [State.mem_code] at h; omega, ?_⟩
    simp only [hr, State.mem_code, Int.toNat_natCast]
  · refine .inr ⟨by simp only [State.mem_code] at h; omega, ?_⟩
    simp only [hr]

/-- A terminal machine has no step; a running one has (R62, R67). -/
theorem terminalReason_none_iff (st : Status) : terminalReason st = none ↔ st = .running := by
  cases st <;> simp [terminalReason]

/-- Everything a step that answers a next state did: the machine was Running, and either the fetch failed and the fault was
taken, or the word at `pc` was fetched, `pc` advanced, the word dispatched and the halt test made (R63, R70). -/
theorem step_next_cases {s t : State} (h : step s = .next t) :
    s.status = .running ∧
      ((s.code.cap < s.pc + 4 ∧ t = s.raiseFault .outOfBounds .fetch) ∨
        (s.pc + 4 ≤ s.code.cap ∧
          ∃ u, dispatch exec (s.code.word s.pc) (advance { s with mbr := s.code.word s.pc }) = .next u ∧
            t = haltTest u)) := by
  unfold step cycle at h
  cases hr : terminalReason s.status with
  | some r => simp [hr] at h
  | none =>
    refine ⟨(terminalReason_none_iff _).1 hr, ?_⟩
    rcases fetch_cases s with ⟨hb, hf⟩ | ⟨hb, hf⟩
    · refine .inr ⟨hb, ?_⟩
      simp only [hr, hf] at h
      cases hd : dispatch exec (s.code.word s.pc) (advance { s with mbr := s.code.word s.pc }) with
      | next u =>
        simp only [hd, afterHandler, Host.Outcome.next.injEq] at h
        exact ⟨u, rfl, h.symm⟩
      | fault r => simp [hd, afterHandler] at h
      | refused r => simp [hd, afterHandler] at h
    · refine .inl ⟨hb, ?_⟩
      simp only [hr, hf, failWith, Host.Outcome.next.injEq] at h
      exact h.symm

end Sys2Proof.Machine
end

