-- ==== Sys2Proof/Laws/Decode.lean ====
section
/-! SUPPORT. Bytes of a word and fields of a canonical word. -/

namespace Sys2Proof

/-- A word made of four bytes has those bytes (R32, R33, R35). -/
theorem byteOfWord_wordOfBytes (b0 b1 b2 b3 : Byte) :
    byteOfWord (wordOfBytes b0 b1 b2 b3) 0 = b0 ∧ byteOfWord (wordOfBytes b0 b1 b2 b3) 1 = b1 ∧
      byteOfWord (wordOfBytes b0 b1 b2 b3) 2 = b2 ∧ byteOfWord (wordOfBytes b0 b1 b2 b3) 3 = b3 := by
  refine ⟨?_, ?_, ?_, ?_⟩ <;>
    · ext i h
      simp only [byteOfWord, wordOfBytes, BitVec.getElem_extractLsb', BitVec.getLsbD_append]
      interval_cases i <;> simp

/-- A word is made of its four bytes (R34). -/
theorem wordOfBytes_byteOfWord (w : Word) :
    wordOfBytes (byteOfWord w 0) (byteOfWord w 1) (byteOfWord w 2) (byteOfWord w 3) = w := by
  apply BitVec.eq_of_getLsbD_eq
  intro i h
  simp only [byteOfWord, wordOfBytes, BitVec.getLsbD_append, BitVec.getLsbD_extractLsb']
  interval_cases i <;> simp

/-- The fields of a canonical word are those it was made of (R57): the opcode and the register fields. -/
theorem extract_encodeFields (f : Fields) :
    (encodeFields f).extractLsb' 28 4 = f.op ∧ (encodeFields f).extractLsb' 24 4 = f.rn := by
  constructor <;>
    · apply BitVec.eq_of_getLsbD_eq
      intro i h
      simp only [encodeFields, BitVec.getLsbD_append, BitVec.getLsbD_extractLsb']
      interval_cases i <;> simp

end Sys2Proof
end

