-- ==== Sys2Proof/Laws/Exec.lean ====
section
/-! SUPPORT. What an instruction can do, said once: every next state of `exec` is one of the cases of `Ran`. -/

namespace Sys2Proof.Machine

/-- The name a fault of the instruction's handler reports: its mnemonic; NOP and HALT never fail (R103). -/
def failName : Instr → Option OpName
  | .nop => none
  | .add _ _ => some .add
  | .sub _ _ => some .sub
  | .and _ _ => some .and
  | .or _ _ => some .or
  | .xor _ _ => some .xor
  | .not _ => some .not
  | .mov _ _ => some .mov
  | .ldr _ _ => some .ldr
  | .str _ _ => some .str
  | .jmp _ => some .jmp
  | .jz _ => some .jz
  | .jn _ => some .jn
  | .inp _ => some .inp
  | .out _ => some .out
  | .halt => none

/-- The ways an instruction `i` run in state `s` answers a next state `t`. -/
inductive Ran (s : State) : Instr → State → Prop where
  /-- A register field in use holds 8 to 15 (R99). -/
  | badOperand (i : Instr) (op : OpName) (hi : i.wellFormed = false) (ho : failName i = some op) : Ran s i (s.raiseFault .invalidOperand op)
  | nop : Ran s .nop (s.setLast 0)
  | add (rn rm : RegField) (n m : Fin 8) (hn : n.val = rn.toNat) (hm : m.val = rm.toNat) :
      Ran s (.add rn rm) (s.writeResult n (wrap32 (signed (s.reg n) + signed (s.reg m))))
  | sub (rn rm : RegField) (n m : Fin 8) (hn : n.val = rn.toNat) (hm : m.val = rm.toNat) :
      Ran s (.sub rn rm) (s.writeResult n (wrap32 (signed (s.reg n) - signed (s.reg m))))
  | and (rn rm : RegField) (n m : Fin 8) (hn : n.val = rn.toNat) (hm : m.val = rm.toNat) :
      Ran s (.and rn rm) (s.writeResult n (s.reg n &&& s.reg m))
  | or (rn rm : RegField) (n m : Fin 8) (hn : n.val = rn.toNat) (hm : m.val = rm.toNat) :
      Ran s (.or rn rm) (s.writeResult n (s.reg n ||| s.reg m))
  | xor (rn rm : RegField) (n m : Fin 8) (hn : n.val = rn.toNat) (hm : m.val = rm.toNat) :
      Ran s (.xor rn rm) (s.writeResult n (s.reg n ^^^ s.reg m))
  | not (rn : RegField) (n : Fin 8) (hn : n.val = rn.toNat) :
      Ran s (.not rn) (s.writeResult n (s.reg n ^^^ 0xFFFFFFFF#32))
  | mov (rn rm : RegField) (n m : Fin 8) (hn : n.val = rn.toNat) (hm : m.val = rm.toNat) :
      Ran s (.mov rn rm) (s.writeMoved n (s.reg m))
  | ldr (rn : RegField) (dir : Dir) (n : Fin 8) (hn : n.val = rn.toNat) (hb : dir.toNat + 4 ≤ s.data.cap) :
      Ran s (.ldr rn dir) (s.writeMoved n (s.data.word dir.toNat))
  | ldrOut (rn : RegField) (dir : Dir) (hn : rn.toNat < 8) (hb : s.data.cap < dir.toNat + 4) :
      Ran s (.ldr rn dir) (s.raiseFault .outOfBounds .ldr)
  | str (rn : RegField) (dir : Dir) (n : Fin 8) (hn : n.val = rn.toNat) (hb : dir.toNat + 4 ≤ s.data.cap) :
      Ran s (.str rn dir) (s.setMem .data (s.data.setWord dir.toNat (s.reg n)))
  | strOut (rn : RegField) (dir : Dir) (hn : rn.toNat < 8) (hb : s.data.cap < dir.toNat + 4) :
      Ran s (.str rn dir) (s.raiseFault .outOfBounds .str)
  | jmp (dir : Dir) (hb : dir.toNat + 4 ≤ s.code.cap) : Ran s (.jmp dir) (s.setPc dir.toNat)
  | jmpOut (dir : Dir) (hb : s.code.cap < dir.toNat + 4) : Ran s (.jmp dir) (s.raiseFault .outOfBounds .jmp)
  | jzTaken (dir : Dir) (hb : dir.toNat + 4 ≤ s.code.cap) (hl : s.last = 0) : Ran s (.jz dir) (s.setPc dir.toNat)
  | jzNot (dir : Dir) (hb : dir.toNat + 4 ≤ s.code.cap) (hl : s.last ≠ 0) : Ran s (.jz dir) s
  | jzOut (dir : Dir) (hb : s.code.cap < dir.toNat + 4) : Ran s (.jz dir) (s.raiseFault .outOfBounds .jz)
  | jnTaken (dir : Dir) (hb : dir.toNat + 4 ≤ s.code.cap) (hl : signed s.last < 0) :
      Ran s (.jn dir) (s.setPc dir.toNat)
  | jnNot (dir : Dir) (hb : dir.toNat + 4 ≤ s.code.cap) (hl : ¬ signed s.last < 0) : Ran s (.jn dir) s
  | jnOut (dir : Dir) (hb : s.code.cap < dir.toNat + 4) : Ran s (.jn dir) (s.raiseFault .outOfBounds .jn)
  | inp (rn : RegField) (n : Fin 8) (v : Word) (rest : List InItem) (hn : n.val = rn.toNat)
      (hi : s.input = .value v :: rest) : Ran s (.inp rn) (({ s with input := rest } : State).writeMoved n v)
  | inpMalformed (rn : RegField) (rest : List InItem) (hn : rn.toNat < 8) (hi : s.input = .malformed :: rest) :
      Ran s (.inp rn) (({ s with input := rest } : State).raiseFault .malformedInput .inp)
  | out (rn : RegField) (n : Fin 8) (hn : n.val = rn.toNat) : Ran s (.out rn) (s.outPush (s.reg n))
  | halt : Ran s .halt { s.setLast 0 with halted := true }

theorem valid_eq_false {r : RegField} (h : 8 ≤ r.toNat) : RegField.valid r = false := by
  simp only [RegField.valid, decide_eq_false_iff_not]; omega

/-- Form R in a meaning: what holds of the answer of the valid case and of the fault holds of the answer. -/
theorem formR_next {op : OpName} {rn : RegField} {s t : State} {k : Fin 8 → Answer} (h : formR op rn s k = .next t) :
    (∃ n : Fin 8, n.val = rn.toNat ∧ k n = .next t) ∨ (8 ≤ rn.toNat ∧ t = s.raiseFault .invalidOperand op) := by
  rcases formR_cases op rn s k with ⟨n, hn, e⟩ | ⟨hn, e⟩
  · exact .inl ⟨n, hn, e ▸ h⟩
  · rw [e, failWith, Host.Outcome.next.injEq] at h
    exact .inr ⟨hn, h.symm⟩

/-- Form RR in a meaning. -/
theorem formRR_next {op : OpName} {rn rm : RegField} {s t : State} {k : Fin 8 → Fin 8 → Answer}
    (h : formRR op rn rm s k = .next t) :
    (∃ n m : Fin 8, n.val = rn.toNat ∧ m.val = rm.toNat ∧ k n m = .next t) ∨
      ((RegField.valid rn && RegField.valid rm) = false ∧ t = s.raiseFault .invalidOperand op) := by
  rcases formRR_cases op rn rm s k with ⟨n, m, hn, hm, e⟩ | ⟨hn, e⟩
  · exact .inl ⟨n, m, hn, hm, e ▸ h⟩
  · rw [e, failWith, Host.Outcome.next.injEq] at h
    refine .inr ⟨?_, h.symm⟩
    rcases hn with hn | hn <;> simp [valid_eq_false hn]

/-- Form D in a meaning. -/
theorem formD_next {op : OpName} {dir : Dir} {s t : State} {k : Nat → Answer} (h : formD op dir s k = .next t) :
    (dir.toNat + 4 ≤ s.code.cap ∧ k dir.toNat = .next t) ∨
      (s.code.cap < dir.toNat + 4 ∧ t = s.raiseFault .outOfBounds op) := by
  rcases formD_cases op dir s k with ⟨hb, e⟩ | ⟨hb, e⟩
  · exact .inl ⟨hb, e ▸ h⟩
  · rw [e, failWith, Host.Outcome.next.injEq] at h
    exact .inr ⟨hb, h.symm⟩

/-- A sum or difference in a meaning: with `wrap` it always has a result (R80). -/
theorem aluExact_next {op : OpName} {f : Int → Int → Int} {rn rm : RegField} {s t : State}
    (h : aluExact op f rn rm s = .next t) :
    (∃ n m : Fin 8, n.val = rn.toNat ∧ m.val = rm.toNat ∧
        t = s.writeResult n (wrap32 (f (signed (s.reg n)) (signed (s.reg m))))) ∨
      ((RegField.valid rn && RegField.valid rm) = false ∧ t = s.raiseFault .invalidOperand op) := by
  rcases formRR_next h with ⟨n, m, hn, hm, e⟩ | hbad
  · simp only [params_arithOverflow, arithResult_wrap, Host.Outcome.next.injEq] at e
    exact .inl ⟨n, m, hn, hm, e.symm⟩
  · exact .inr hbad

/-- A bitwise operation in a meaning. -/
theorem aluBitwise_next {op : OpName} {f : Word → Word → Word} {rn rm : RegField} {s t : State}
    (h : aluBitwise op f rn rm s = .next t) :
    (∃ n m : Fin 8, n.val = rn.toNat ∧ m.val = rm.toNat ∧ t = s.writeResult n (f (s.reg n) (s.reg m))) ∨
      ((RegField.valid rn && RegField.valid rm) = false ∧ t = s.raiseFault .invalidOperand op) := by
  rcases formRR_next h with ⟨n, m, hn, hm, e⟩ | hbad
  · rw [Host.Outcome.next.injEq] at e
    exact .inl ⟨n, m, hn, hm, e.symm⟩
  · exact .inr hbad

theorem ran_str {rn : RegField} {dir : Dir} {s t : State} (h : execStr rn dir s = .next t) : Ran s (.str rn dir) t := by
  rcases formR_next h with ⟨n, hn, e⟩ | ⟨hn, rfl⟩
  · rcases memWrite_cases s .data (dataAddr dir) (s.reg n) with ⟨hb, hw⟩ | ⟨hb, hw⟩ <;>
      simp only [hw, orFail, failWith, Host.Outcome.next.injEq] at e <;> subst e <;>
      simp only [dataAddr, State.mem_data] at hb
    · simpa [dataAddr] using Ran.str rn dir n hn (by omega)
    · exact Ran.strOut rn dir (by omega) (by omega)
  · exact Ran.badOperand _ _ (by simp [Instr.wellFormed, valid_eq_false hn]) rfl

theorem ran_ldr {rn : RegField} {dir : Dir} {s t : State} (h : execLdr rn dir s = .next t) : Ran s (.ldr rn dir) t := by
  rcases formR_next h with ⟨n, hn, e⟩ | ⟨hn, rfl⟩
  · rcases memRead_cases s .data (dataAddr dir) with ⟨hb, hr⟩ | ⟨hb, hr⟩ <;>
      simp only [hr, orFail, failWith, Host.Outcome.next.injEq] at e <;> subst e <;>
      simp only [dataAddr, State.mem_data] at hb
    · simpa [dataAddr] using Ran.ldr rn dir n hn (by omega)
    · exact Ran.ldrOut rn dir (by omega) (by omega)
  · exact Ran.badOperand _ _ (by simp [Instr.wellFormed, valid_eq_false hn]) rfl

theorem ran_in {rn : RegField} {s t : State} (h : execIn rn s = .next t) : Ran s (.inp rn) t := by
  rcases formR_next h with ⟨n, hn, e⟩ | ⟨hn, rfl⟩
  · rcases inPop_cases s with ⟨hi, hp⟩ | ⟨item, rest, hi, hp⟩
    · simp [hp] at e
    · cases item with
      | value v =>
        simp only [hp, Host.Outcome.next.injEq] at e
        subst e
        exact Ran.inp rn n v rest hn hi
      | malformed =>
        simp only [hp, failWith, Host.Outcome.next.injEq] at e
        subst e
        exact Ran.inpMalformed rn rest (by omega) hi
  · exact Ran.badOperand _ _ (by simp [Instr.wellFormed, valid_eq_false hn]) rfl

theorem ran_jz {dir : Dir} {s t : State} (h : execJz dir s = .next t) : Ran s (.jz dir) t := by
  rcases formD_next h with ⟨hb, e⟩ | ⟨hb, rfl⟩
  · rw [Host.Outcome.next.injEq] at e
    by_cases hl : s.last = 0
    · simp only [State.lastIsZero, hl, decide_true, if_true] at e
      exact e ▸ Ran.jzTaken dir hb hl
    · simp only [State.lastIsZero, hl, decide_false, Bool.false_eq_true, if_false] at e
      exact e ▸ Ran.jzNot dir hb hl
  · exact Ran.jzOut dir hb

theorem ran_jn {dir : Dir} {s t : State} (h : execJn dir s = .next t) : Ran s (.jn dir) t := by
  rcases formD_next h with ⟨hb, e⟩ | ⟨hb, rfl⟩
  · rw [Host.Outcome.next.injEq] at e
    by_cases hl : signed s.last < 0
    · simp only [State.lastIsNegative, hl, decide_true, if_true] at e
      exact e ▸ Ran.jnTaken dir hb hl
    · simp only [State.lastIsNegative, hl, decide_false, Bool.false_eq_true, if_false] at e
      exact e ▸ Ran.jnNot dir hb hl
  · exact Ran.jnOut dir hb

/-- Every next state of an instruction is one of the cases of `Ran`. -/
theorem exec_next {i : Instr} {s t : State} (h : exec i s = .next t) : Ran s i t := by
  cases i with
  | nop => cases h; exact Ran.nop
  | halt => cases h; exact Ran.halt
  | add rn rm =>
    rcases aluExact_next h with ⟨n, m, hn, hm, rfl⟩ | ⟨hbad, rfl⟩
    · exact Ran.add rn rm n m hn hm
    · exact Ran.badOperand _ _ hbad rfl
  | sub rn rm =>
    rcases aluExact_next h with ⟨n, m, hn, hm, rfl⟩ | ⟨hbad, rfl⟩
    · exact Ran.sub rn rm n m hn hm
    · exact Ran.badOperand _ _ hbad rfl
  | and rn rm =>
    rcases aluBitwise_next h with ⟨n, m, hn, hm, rfl⟩ | ⟨hbad, rfl⟩
    · exact Ran.and rn rm n m hn hm
    · exact Ran.badOperand _ _ hbad rfl
  | or rn rm =>
    rcases aluBitwise_next h with ⟨n, m, hn, hm, rfl⟩ | ⟨hbad, rfl⟩
    · exact Ran.or rn rm n m hn hm
    · exact Ran.badOperand _ _ hbad rfl
  | xor rn rm =>
    rcases aluBitwise_next h with ⟨n, m, hn, hm, rfl⟩ | ⟨hbad, rfl⟩
    · exact Ran.xor rn rm n m hn hm
    · exact Ran.badOperand _ _ hbad rfl
  | not rn =>
    rcases formR_next h with ⟨n, hn, e⟩ | ⟨hn, rfl⟩
    · rw [Host.Outcome.next.injEq] at e
      exact e ▸ Ran.not rn n hn
    · exact Ran.badOperand _ _ (by simp [Instr.wellFormed, valid_eq_false hn]) rfl
  | mov rn rm =>
    rcases formRR_next h with ⟨n, m, hn, hm, e⟩ | ⟨hbad, rfl⟩
    · rw [Host.Outcome.next.injEq] at e
      exact e ▸ Ran.mov rn rm n m hn hm
    · exact Ran.badOperand _ _ hbad rfl
  | ldr rn dir => exact ran_ldr h
  | str rn dir => exact ran_str h
  | jmp dir =>
    rcases formD_next h with ⟨hb, e⟩ | ⟨hb, rfl⟩
    · rw [Host.Outcome.next.injEq] at e
      exact e ▸ Ran.jmp dir hb
    · exact Ran.jmpOut dir hb
  | jz dir => exact ran_jz h
  | jn dir => exact ran_jn h
  | inp rn => exact ran_in h
  | out rn =>
    rcases formR_next h with ⟨n, hn, e⟩ | ⟨hn, rfl⟩
    · rw [Host.Outcome.next.injEq] at e
      exact e ▸ Ran.out rn n hn
    · exact Ran.badOperand _ _ (by simp [Instr.wellFormed, valid_eq_false hn]) rfl

end Sys2Proof.Machine
end

