-- ==== Sys2Proof/Laws/PerInstr.lean ====
section
/-! SUPPORT. Statements made per instruction: the bits of the canonical word. -/

namespace Sys2Proof.Laws.CanonicalBits

/-- The canonical word of the instruction starts with its opcode, has its `rn` field in bits 27 to 24, and has 0 in every bit
its form does not use (R51, R57). -/
def Statement (i : Instr) : Prop :=
  (encode i).extractLsb' 28 4 = i.opcode ∧ (encode i).extractLsb' 24 4 = i.rnField ∧
    encode i &&& ~~~ i.form.usedBits = 0

/-! A word whose fields are zero where a form does not use them has 0 in every bit the form does not use, form by form. -/

theorem clear_z (op : BitVec 4) : encodeFields ⟨op, 0, 0, 0⟩ &&& ~~~ Form.z.usedBits = 0 := by
  apply BitVec.eq_of_getLsbD_eq
  intro i h
  simp only [encodeFields, Form.usedBits, BitVec.getLsbD_append, BitVec.getLsbD_and]
  interval_cases i <;> simp

theorem clear_rr (op : BitVec 4) (rn rm : RegField) : encodeFields ⟨op, rn, rm, 0⟩ &&& ~~~ Form.rr.usedBits = 0 := by
  apply BitVec.eq_of_getLsbD_eq
  intro i h
  simp only [encodeFields, Form.usedBits, BitVec.getLsbD_append, BitVec.getLsbD_and]
  interval_cases i <;> simp

theorem clear_r (op : BitVec 4) (rn : RegField) : encodeFields ⟨op, rn, 0, 0⟩ &&& ~~~ Form.r.usedBits = 0 := by
  apply BitVec.eq_of_getLsbD_eq
  intro i h
  simp only [encodeFields, Form.usedBits, BitVec.getLsbD_append, BitVec.getLsbD_and]
  interval_cases i <;> simp

theorem clear_rd (op : BitVec 4) (rn : RegField) (dir : Dir) : encodeFields ⟨op, rn, 0, dir⟩ &&& ~~~ Form.rd.usedBits = 0 := by
  apply BitVec.eq_of_getLsbD_eq
  intro i h
  simp only [encodeFields, Form.usedBits, BitVec.getLsbD_append, BitVec.getLsbD_and]
  interval_cases i <;> simp

theorem clear_d (op : BitVec 4) (dir : Dir) : encodeFields ⟨op, 0, 0, dir⟩ &&& ~~~ Form.d.usedBits = 0 := by
  apply BitVec.eq_of_getLsbD_eq
  intro i h
  simp only [encodeFields, Form.usedBits, BitVec.getLsbD_append, BitVec.getLsbD_and]
  interval_cases i <;> simp

theorem of_unused {i : Instr} (h : encode i &&& ~~~ i.form.usedBits = 0) : Statement i :=
  ⟨(extract_encodeFields _).1, (extract_encodeFields _).2, h⟩

theorem nop : Statement .nop := of_unused (clear_z _)
theorem add (rn rm : RegField) : Statement (.add rn rm) := of_unused (clear_rr _ rn rm)
theorem sub (rn rm : RegField) : Statement (.sub rn rm) := of_unused (clear_rr _ rn rm)
theorem and (rn rm : RegField) : Statement (.and rn rm) := of_unused (clear_rr _ rn rm)
theorem or (rn rm : RegField) : Statement (.or rn rm) := of_unused (clear_rr _ rn rm)
theorem xor (rn rm : RegField) : Statement (.xor rn rm) := of_unused (clear_rr _ rn rm)
theorem not (rn : RegField) : Statement (.not rn) := of_unused (clear_r _ rn)
theorem mov (rn rm : RegField) : Statement (.mov rn rm) := of_unused (clear_rr _ rn rm)
theorem ldr (rn : RegField) (dir : Dir) : Statement (.ldr rn dir) := of_unused (clear_rd _ rn dir)
theorem str (rn : RegField) (dir : Dir) : Statement (.str rn dir) := of_unused (clear_rd _ rn dir)
theorem jmp (dir : Dir) : Statement (.jmp dir) := of_unused (clear_d _ dir)
theorem jz (dir : Dir) : Statement (.jz dir) := of_unused (clear_d _ dir)
theorem jn (dir : Dir) : Statement (.jn dir) := of_unused (clear_d _ dir)
theorem inp (rn : RegField) : Statement (.inp rn) := of_unused (clear_r _ rn)
theorem out (rn : RegField) : Statement (.out rn) := of_unused (clear_r _ rn)
theorem halt : Statement .halt := of_unused (clear_z _)

end Sys2Proof.Laws.CanonicalBits
end

