-- ==== Sys2Proof/Tests/Slice0.lean ====
section
/-! SUPPORT. Tests: expected results are the spec's own vectors (95_test_vectors.md V1 to V8, S1 to S6), and for every statement
with hypotheses a witness that meets them. -/

namespace Sys2Proof.Tests

open Sys2Proof.Machine

/-! ## WellFormed: each check refuses an ill-formed term (R54) -/

theorem test_wf_rn_refused : (Instr.add 8 0).wellFormed = false := by decide
theorem test_wf_rm_refused : (Instr.mov 7 15).wellFormed = false := by decide
theorem test_wf_single_refused : (Instr.not 8).wellFormed = false := by decide
theorem test_wf_load_refused : (Instr.ldr 9 1000).wellFormed = false := by decide
theorem test_wf_edge_accepted : (Instr.add 7 7).wellFormed = true := by decide
theorem test_careful_reserved_refused : carefulWord 0x000F0000#32 = false := by decide
theorem test_careful_unused_refused : carefulWord 0x61F00000#32 = false := by decide
theorem test_careful_jump_unused_refused : carefulWord 0xAFF00008#32 = false := by decide
theorem test_careful_accepted : carefulWord 0x9200001C#32 = true := by decide

/-! ## Decoding: words written out from the encodings of R48, R52, R59 and V1 -/

theorem test_decode_nop : decode 0x0FFFFFFF#32 = .ok .nop := by decide
theorem test_decode_add : decode 0x12345678#32 = .ok (.add 2 3) := by decide
theorem test_decode_sub : decode 0x20100000#32 = .ok (.sub 0 1) := by decide
theorem test_decode_and : decode 0x32300000#32 = .ok (.and 2 3) := by decide
theorem test_decode_or : decode 0x42300000#32 = .ok (.or 2 3) := by decide
theorem test_decode_xor : decode 0x52300000#32 = .ok (.xor 2 3) := by decide
theorem test_decode_not : decode 0x61F00000#32 = .ok (.not 1) := by decide
theorem test_decode_mov : decode 0x7FFFFFFF#32 = .ok (.mov 15 15) := by decide
theorem test_decode_ldr : decode 0x8F2A0010#32 = .ok (.ldr 15 16) := by decide
theorem test_decode_str : decode 0x9500001C#32 = .ok (.str 5 28) := by decide
theorem test_decode_jmp : decode 0xAFF00008#32 = .ok (.jmp 8) := by decide
theorem test_decode_jz : decode 0xB0000014#32 = .ok (.jz 20) := by decide
theorem test_decode_jn : decode 0xC0000018#32 = .ok (.jn 24) := by decide
theorem test_decode_in : decode 0xD1000000#32 = .ok (.inp 1) := by decide
theorem test_decode_out : decode 0xE3000000#32 = .ok (.out 3) := by decide
theorem test_decode_halt : decode 0xFFFFFFFF#32 = .ok .halt := by decide
/-- R58: `ADD R0, R1` lies in memory as the bytes 00 00 10 10. -/
theorem test_decode_bytes : decodeBytes [0x00#8, 0x00#8, 0x10#8, 0x10#8, 0xAB#8] = .ok (.add 0 1, [0xAB#8]) := by decide
theorem test_decode_truncated : decodeBytes [0x00#8, 0x00#8, 0x10#8] = .error .truncated := by decide
theorem test_decode_default_arm : selectInstr 0x3F 0 0 0 = .error (.unknownOpcode 0x3F) := by decide
theorem test_encode_add : encode (.add 0 1) = 0x10100000#32 := by decide
theorem test_encode_str : encode (.str 2 28) = 0x9200001C#32 := by decide
theorem test_table_word : decodeTableWord 32 0xB0000014 = some (.jz 20) := by decide

/-! ## One step of each instruction -/

/-- The state after one step that runs the word `w` at `pc`. -/
def ran (w : Nat) (s : State) : Option State :=
  match step (s.withFetchWord 32 w) with
  | .next t => some t
  | .fault _ => none
  | .refused _ => none

/-- Reset, with two registers set. -/
def regs2 (n : Fin 8) (a : Word) (m : Fin 8) (b : Word) : State := (State.reset.setReg n a).setReg m b

/-- Reset, with the fetch at 12 and a value in `last` (V6). -/
def at12 (last : Word) : State := (State.reset.setPc 12).setLast last

theorem test_nop : (ran 0x0FFFFFFF (at12 0xFFFFFFFD)).map (fun t => (t.last, t.pc, t.status)) = some (0, 16, .running) := by
  decide
/-- V3: 2147483647 + 1. -/
theorem test_add_wraps :
    (ran 0x10100000 (regs2 0 0x7FFFFFFF 1 1)).map (fun t => (t.reg 0, t.last, t.reg 1)) =
      some (0x80000000, 0x80000000, 1) := by decide
/-- V4: word 11F00000 has `rm = 15`. -/
theorem test_add_bad_rm :
    (ran 0x11F00000 State.reset).map (fun t => (t.status, t.pc, t.mbr)) =
      some (.faulted .invalidOperand .add, 4, 0x11F00000) := by decide
/-- V3: 3 - 5. -/
theorem test_sub : (ran 0x20100000 (regs2 0 3 1 5)).map (fun t => (t.reg 0, t.last)) = some (0xFFFFFFFE, 0xFFFFFFFE) := by
  decide
/-- V3: -2147483648 - 1. -/
theorem test_sub_wraps : (ran 0x20100000 (regs2 0 0x80000000 1 1)).map (fun t => t.last) = some 0x7FFFFFFF := by decide
theorem test_and : (ran 0x32300000 (regs2 2 0xFF0F 3 0x0FF0)).map (fun t => (t.reg 2, t.last)) = some (0xF00, 0xF00) := by
  decide
theorem test_or : (ran 0x42300000 (regs2 2 0xFF0F 3 0x0FF0)).map (fun t => (t.reg 2, t.last)) = some (0xFFFF, 0xFFFF) := by
  decide
theorem test_xor : (ran 0x52300000 (regs2 2 0xFF0F 3 0x0FF0)).map (fun t => (t.reg 2, t.last)) = some (0xF0FF, 0xF0FF) := by
  decide
/-- V4: NOT with `rm = 15` does not fault. -/
theorem test_not_ignores_rm :
    (ran 0x61F00000 State.reset).map (fun t => (t.reg 1, t.last, t.status)) = some (0xFFFFFFFF, 0xFFFFFFFF, .running) := by
  decide
/-- V5: x[0] = -5, x[2] = 9, last = 1. -/
theorem test_mov :
    (ran 0x72000000 ((regs2 0 0xFFFFFFFB 2 9).setLast 1)).map (fun t => (t.reg 2, t.reg 0, t.last)) =
      some (0xFFFFFFFB, 0xFFFFFFFB, 1) := by decide
theorem test_mov_bad_rn : (ran 0x78000000 State.reset).map (fun t => t.status) = some (.faulted .invalidOperand .mov) := by
  decide
/-- V5: DATA[8..11] = FE FF FF FF. -/
theorem test_ldr :
    (ran 0x81000008 (State.reset.setMem .data (State.reset.data.setWord 8 0xFFFFFFFE))).map (fun t => (t.reg 1, t.last)) =
      some (0xFFFFFFFE, 0) := by decide
/-- V5: the operand is checked before the bound. -/
theorem test_ldr_priority :
    (ran 0x890003E8 State.reset).map (fun t => t.status) = some (.faulted .invalidOperand .ldr) := by decide
/-- V5: 305419896 stored at 28, the last address in bounds. -/
theorem test_str :
    (ran 0x9500001C (State.reset.setReg 5 0x12345678)).map (fun t => t.data.cells) =
      some [(28, 0x78), (29, 0x56), (30, 0x34), (31, 0x12)] := by decide
/-- V5: STR R0, [30] stores nothing. -/
theorem test_str_out_of_bounds :
    (ran 0x9000001E (State.reset.setReg 0 1)).map (fun t => (t.status, t.data)) =
      some (.faulted .outOfBounds .str, State.reset.data) := by decide
theorem test_jmp : (ran 0xA0000006 (at12 0)).map (fun t => (t.pc, t.status)) = some (6, .running) := by decide
theorem test_jmp_out_of_bounds :
    (ran 0xA000001D (at12 0)).map (fun t => (t.pc, t.status)) = some (16, .faulted .outOfBounds .jmp) := by decide
theorem test_jz_taken : (ran 0xB0000014 (at12 0)).map (fun t => t.pc) = some 20 := by decide
/-- V6: the target is checked although the jump would not be taken. -/
theorem test_jz_checks_first :
    (ran 0xB000001E (at12 5)).map (fun t => (t.pc, t.status)) = some (16, .faulted .outOfBounds .jz) := by decide
theorem test_jn_taken : (ran 0xC0000018 (at12 0x80000000)).map (fun t => t.pc) = some 24 := by decide
theorem test_jn_zero_not_taken : (ran 0xC0000018 (at12 0)).map (fun t => t.pc) = some 16 := by decide
theorem test_in :
    (ran 0xD0000000 (State.reset.deliver [.value 3, .value 4])).map (fun t => (t.reg 0, t.input)) =
      some (3, [.value 4]) := by decide
theorem test_in_malformed :
    (ran 0xD0000000 ((State.reset.setReg 0 9).deliver [.malformed])).map (fun t => (t.reg 0, t.input, t.status)) =
      some (9, [], .faulted .malformedInput .inp) := by decide
theorem test_out :
    (ran 0xE3000000 ((State.reset.setReg 3 0xFFFFFFFF).outPush 7)).map (fun t => t.output) = some [7, 0xFFFFFFFF] := by decide
theorem test_out_bad_rn :
    (ran 0xE8000000 State.reset).map (fun t => (t.output, t.status)) = some ([], .faulted .invalidOperand .out) := by decide
/-- V7: HALT fetched at 16 with last = 7. -/
theorem test_halt :
    (ran 0xF0000000 ((State.reset.setPc 16).setLast 7)).map (fun t => (t.last, t.halted, t.status, t.pc, t.mbr)) =
      some (0, true, .halted, 20, 0xF0000000) := by decide

/-! ## The cycle, the codec and the host interface -/

/-- V8: a fetch at 32. -/
theorem test_fetch_failure : ran 0 (State.reset.setPc 32) = some ((State.reset.setPc 32).raiseFault .outOfBounds .fetch) := by
  decide
/-- V7: IN on an empty stream has no step. -/
theorem test_in_waits : step (State.reset.withFetchWord 32 0xD0000000) = .fault .inputExhausted := rfl
/-- R67. -/
theorem test_halted_has_no_step : step { State.reset with status := .halted } = .fault .terminalHalted := rfl
/-- R37: -2 stored at 5, read at 4 and at 8. -/
theorem test_overlap :
    ((State.reset.data.setWord 5 0xFFFFFFFE).readWord 4, (State.reset.data.setWord 5 0xFFFFFFFE).readWord 8) =
      (.ok 0xFFFFFE00, .ok 255) := by decide
/-- S6: a read at 29 of 32 bytes, and a read at a negative address (R31, R41). -/
theorem test_bounds :
    (State.reset.data.readWord 28, State.reset.data.readWord 29, State.reset.data.readWord (-1)) =
      (.ok 0, .error .outOfBounds, .error .outOfBounds) := by decide
/-- Writing the value an unlisted address reads as leaves equal memories equal. -/
theorem test_canonical : (State.reset.data.setWord 4 0xFF00FF00).setWord 4 0 = State.reset.data := by decide
/-- S6: eight words load into 32 bytes, nine do not. -/
theorem test_loader_capacity :
    (loadProgram (List.replicate 8 0xF0000000) State.reset).isOk = true ∧
      loadProgram (List.replicate 9 0xF0000000) State.reset = .error .capacityExceeded := by decide
/-- R23, D11: 2147483648 does not fit a Word. -/
theorem test_token_range :
    (InItem.ofToken (some 2147483648), InItem.ofToken (some (-2147483648)), InItem.ofToken none) =
      (.malformed, .value 0x80000000, .malformed) := by decide
/-- U2: the model-only result of ADD under ARITH_OVERFLOW = fault; under wrap every sum has one. -/
theorem test_arith_overflow_parameter :
    (arithResult .fault 2147483648, arithResult .fault 2147483647, arithResult .wrap 2147483648) =
      (none, some 0x7FFFFFFF, some 0x80000000) := by decide

/-! ## Witnesses: the hypotheses of every statement can be met, clause by clause, at boundary values -/

/-- Reset with a word placed at `pc`. -/
def placed (w : Nat) : State := State.reset.withFetchWord 32 w

/-- Reset with a word placed at `pc` and one malformed item. -/
def placedMalformed (w : Nat) : State := (placed w).deliver [.malformed]

theorem witness_ReservedBitsIgnored :
    ∃ w w' : Word, w ≠ w' ∧ w &&& 0xFFF0FFFF#32 = w' &&& 0xFFF0FFFF#32 := ⟨0x100F0000, 0x10000000, by decide⟩
theorem witness_UnusedFieldsIgnored : ∃ (w : Word) (i : Instr), decode w = .ok i := ⟨0x61F00000, .not 1, by decide⟩

/-- ADD, SUB, AND, OR, XOR, MOV and R81: a word of each opcode, valid fields at 0 and 7, invalid ones at 8 and 15. -/
theorem witness_register_pair_statements :
    ((0x10100000#32).extractLsb' 28 4 = 0x1#4 ∧ (0x20100000#32).extractLsb' 28 4 = 0x2#4 ∧
      (0x32300000#32).extractLsb' 28 4 = 0x3#4 ∧ (0x42300000#32).extractLsb' 28 4 = 0x4#4 ∧
      (0x52300000#32).extractLsb' 28 4 = 0x5#4 ∧ (0x72000000#32).extractLsb' 28 4 = 0x7#4) ∧
    ((0#4).toNat < 8 ∧ (7#4).toNat < 8) ∧ (7 < (8#4).toNat ∨ 7 < (0#4).toNat) ∧ (7 < (7#4).toNat ∨ 7 < (15#4).toNat) := by
  decide
/-- NOT, IN, OUT: a word of each opcode, a valid field at 7, an invalid one at 8. -/
theorem witness_register_statements :
    ((0x61000000#32).extractLsb' 28 4 = 0x6#4 ∧ (0xD0000000#32).extractLsb' 28 4 = 0xD#4 ∧
      (0xE0000000#32).extractLsb' 28 4 = 0xE#4) ∧ (7#4).toNat < 8 ∧ 7 < (8#4).toNat := by decide
/-- LDR and STR: address 28 is the last in bounds, 29 the first out of bounds. -/
theorem witness_memory_statements :
    ((0x81000008#32).extractLsb' 28 4 = 0x8#4 ∧ (0x90000004#32).extractLsb' 28 4 = 0x9#4) ∧
    ((7#4).toNat < 8 ∧ (28#16).toNat + 4 ≤ State.reset.data.cap) ∧ 7 < (8#4).toNat ∧
    ((7#4).toNat < 8 ∧ State.reset.data.cap < (29#16).toNat + 4) := by decide
/-- JMP, JZ and JN: target 28 is the last valid one, 29 the first invalid one. -/
theorem witness_jump_statements :
    ((0xA0000008#32).extractLsb' 28 4 = 0xA#4 ∧ (0xB0000014#32).extractLsb' 28 4 = 0xB#4 ∧
      (0xC0000018#32).extractLsb' 28 4 = 0xC#4) ∧
    (28#16).toNat + 4 ≤ State.reset.code.cap ∧ State.reset.code.cap < (29#16).toNat + 4 := by decide
theorem witness_InTakesItem :
    (State.reset.deliver [.value 3, .value 4]).input = .value 3 :: [.value 4] ∧
    (State.reset.deliver [.malformed]).input = .malformed :: [] := by decide
theorem witness_InWaitsForAnItem :
    (7#4).toNat < 8 ∧ (placed 0xD7000000).status = .running ∧ (placed 0xD7000000).halted = false ∧
    (placed 0xD7000000).pc + 4 ≤ (placed 0xD7000000).code.cap ∧
    decode ((placed 0xD7000000).code.word (placed 0xD7000000).pc) = .ok (.inp 7) ∧ (placed 0xD7000000).input = [] := by decide
theorem witness_NopClearsLast : (0x00000007#32).extractLsb' 28 4 = 0x0#4 := by decide
theorem witness_HaltStopsCleanly :
    (0xFFFFFFFF#32).extractLsb' 28 4 = 0xF#4 ∧ (placed 0xF0000000).status = .running ∧
    (placed 0xF0000000).pc + 4 ≤ (placed 0xF0000000).code.cap ∧
    ((placed 0xF0000000).code.word (placed 0xF0000000).pc).extractLsb' 28 4 = 0xF#4 := by decide

/-- Fetch out of bounds at 29, in bounds at 28, in a Running state; a decoded instruction. -/
theorem witness_StepRunsDecodedInstruction :
    ((State.reset.setPc 29).status = .running ∧ (State.reset.setPc 29).code.cap < (State.reset.setPc 29).pc + 4) ∧
    ((State.reset.setPc 28).status = .running ∧ (State.reset.setPc 28).pc + 4 ≤ (State.reset.setPc 28).code.cap ∧
      decode ((State.reset.setPc 28).code.word (State.reset.setPc 28).pc) = .ok .nop) := by decide
/-- A step that gives a next state: the hypothesis of every statement about whole steps. -/
theorem witness_step_next : ∃ s t : State, s.pc + 4 ≤ s.code.cap ∧ decode (s.code.word s.pc) = .ok (.jmp 28) ∧ step s = .next t :=
  ⟨placed 0xA000001C, _, by decide, by decide, rfl⟩
theorem witness_step_next_jz : ∃ s t : State, s.pc + 4 ≤ s.code.cap ∧ decode (s.code.word s.pc) = .ok (.jz 28) ∧ step s = .next t :=
  ⟨placed 0xB000001C, _, by decide, by decide, rfl⟩
theorem witness_step_next_jn : ∃ s t : State, s.pc + 4 ≤ s.code.cap ∧ decode (s.code.word s.pc) = .ok (.jn 28) ∧ step s = .next t :=
  ⟨placed 0xC000001C, _, by decide, by decide, rfl⟩
/-- Every opcode steps from reset with an item given: the clauses of the statements about whole steps, by instruction. -/
theorem witness_every_opcode_steps :
    ([0x00000000, 0x17700000, 0x27700000, 0x37700000, 0x47700000, 0x57700000, 0x67000000, 0x77700000, 0x8700001C,
      0x9700001C, 0xA000001C, 0xB000001C, 0xC000001C, 0xD7000000, 0xE7000000, 0xF0000000].map fun w =>
        (ran w (State.reset.deliver [.value 1])).isSome) = List.replicate 16 true := by decide
/-- The clauses of OutOfBoundsExactly, at the first address out of bounds. -/
theorem witness_out_of_bounds_clauses :
    ([0x8700001D, 0x9700001D, 0xA000001D, 0xB000001D, 0xC000001D].map fun w => (ran w (at12 1)).map fun t => t.status) =
      [some (.faulted .outOfBounds .ldr), some (.faulted .outOfBounds .str), some (.faulted .outOfBounds .jmp),
        some (.faulted .outOfBounds .jz), some (.faulted .outOfBounds .jn)] := by decide
theorem witness_PcAfterStep_fetch : ∃ s t : State, s.code.cap < s.pc + 4 ∧ step s = .next t :=
  ⟨State.reset.setPc 29, _, by decide, rfl⟩
theorem witness_OnlyHaltHalts : ∃ s t : State, s.halted = false ∧ step s = .next t ∧ t.status = .halted :=
  ⟨placed 0xF0000000, _, by decide, rfl, by decide⟩
theorem witness_TerminalStatesHaveNoStep :
    (∃ s : State, s.status = .halted ∧ s.status ≠ .running) ∧ (∃ s : State, s.status = .faulted .outOfBounds .fetch) :=
  ⟨⟨{ State.reset with status := .halted }, by decide⟩, ⟨State.reset.raiseFault .outOfBounds .fetch, rfl⟩⟩
theorem witness_RunningMachineSteps : State.reset.status = .running := by decide
theorem witness_FetchFailureChangesStatusOnly :
    ∃ s t : State, s.status = .running ∧ s.code.cap < s.pc + 4 ∧ step s = .next t ∧ t.status = .faulted .outOfBounds .fetch :=
  ⟨State.reset.setPc 32, _, by decide, by decide, rfl, by decide⟩
theorem witness_HandlerFailureIsPrecise :
    (∃ s t : State, s.pc + 4 ≤ s.code.cap ∧ step s = .next t ∧ t.status = .faulted .invalidOperand .add) ∧
    (∃ s t : State, s.pc + 4 ≤ s.code.cap ∧ step s = .next t ∧ t.status = .faulted .malformedInput .inp) :=
  ⟨⟨placed 0x18000000, _, by decide, rfl, by decide⟩, ⟨placedMalformed 0xD0000000, _, by decide, rfl, by decide⟩⟩
theorem witness_OutOfBoundsExactly :
    ∃ s t : State, step s = .next t ∧ t.status = .faulted .outOfBounds .ldr :=
  ⟨placed 0x8000001D, _, rfl, by decide⟩
theorem witness_MalformedInputExactly :
    ∃ s t : State, step s = .next t ∧ t.status = .faulted .malformedInput .inp :=
  ⟨placedMalformed 0xD0000000, _, rfl, by decide⟩
theorem witness_InvalidOperandExactly :
    ∃ s t : State, s.status = .running ∧ exec (.not 8) s = .next t ∧ t.status = .faulted .invalidOperand .not :=
  ⟨State.reset, _, by decide, rfl, by decide⟩
/-- One program for a pair of R103: `JMP 28` runs into the end of CODE. -/
theorem witness_ReachableFaultValues :
    ∃ s t : State, boot [0xA000001C#32] [] State.reset = .ok s ∧ runLoop 3 s = .terminal t ∧
      t.status = .faulted .outOfBounds .fetch := ⟨_, _, rfl, rfl, by decide⟩

/-- The bound rule, the codec and the round trip: 0 and 28 in bounds; -1 and 29 out of bounds. -/
theorem witness_memory_access_statements :
    (0 ≤ (0 : Int) ∧ (0 : Int) + 4 ≤ (State.reset.data.cap : Int)) ∧ (0 ≤ (28 : Int) ∧ (28 : Int) + 4 ≤ (State.reset.data.cap : Int)) ∧
    ¬ (0 ≤ (-1 : Int) ∧ (-1 : Int) + 4 ≤ (State.reset.data.cap : Int)) ∧ (State.reset.data.cap : Int) < (29 : Int) + 4 ∧
    (-1 : Int) < 0 := by decide
theorem witness_OnlyStrWritesData : ∃ (s t : State) (a : Nat), step s = .next t ∧ t.data.byte a ≠ s.data.byte a :=
  ⟨(placed 0x90000004).setReg 0 1, _, 4, rfl, by decide⟩

theorem witness_RegisterInstructionsFrame :
    (∃ s t : State, exec (.add 7 0) s = .next t) ∧ (∃ s t : State, exec (.not 7) s = .next t) ∧
    (∃ s t : State, exec (.ldr 7 28) s = .next t) ∧ (∃ s t : State, exec (.mov 8 0) s = .next t ∧ t.status ≠ s.status) :=
  ⟨⟨State.reset, _, rfl⟩, ⟨State.reset, _, rfl⟩, ⟨State.reset, _, rfl⟩, ⟨State.reset, _, rfl, by decide⟩⟩
theorem witness_StrFrame :
    ∃ (s t : State) (a : Nat), exec (.str 7 24) s = .next t ∧ dataAddr 24 + 4 ≤ (a : Int) := ⟨State.reset, _, 28, rfl, by decide⟩
theorem witness_JumpFrame :
    (∃ s t : State, exec (.jmp 28) s = .next t) ∧ (∃ s t : State, exec (.jz 29) s = .next t) ∧
    (∃ s t : State, exec (.jn 28) s = .next t) := ⟨⟨State.reset, _, rfl⟩, ⟨State.reset, _, rfl⟩, ⟨State.reset, _, rfl⟩⟩
theorem witness_IoAndSystemFrame :
    (∃ s t : State, exec (.inp 7) s = .next t) ∧ (∃ s t : State, exec (.out 7) s = .next t) ∧
    (∃ s t : State, exec .nop s = .next t) ∧ (∃ s t : State, exec .halt s = .next t) :=
  ⟨⟨State.reset.deliver [.value 1], _, rfl⟩, ⟨State.reset, _, rfl⟩, ⟨State.reset, _, rfl⟩, ⟨State.reset, _, rfl⟩⟩
theorem witness_LastAfterStep :
    ∃ s t : State, s.pc + 4 ≤ s.code.cap ∧ decode (s.code.word s.pc) = .ok (.not 7) ∧ step s = .next t :=
  ⟨placed 0x67000000, _, by decide, by decide, rfl⟩
theorem witness_StreamsMoveInOrder :
    (∃ s t : State, step s = .next t ∧ t.input ≠ s.input) ∧ (∃ s t : State, step s = .next t ∧ t.output ≠ s.output) :=
  ⟨⟨placedMalformed 0xD0000000, _, rfl, by decide⟩, ⟨placed 0xE0000000, _, rfl, by decide⟩⟩

/-- An invariant state with a step: reset with a STR placed at 0, which is reset's state but for canonical code memory. -/
theorem witness_StepKeepsInvariant : ∃ s t : State, s.Inv ∧ step s = .next t :=
  ⟨placed 0x9000001C, _, ⟨by decide, by decide, by decide, by decide, by decide, by decide, by decide⟩, rfl⟩
theorem witness_InvariantAtReset :
    State.reset.code.cap ≤ Config.maxCap ∧ State.reset.data.cap ≤ Config.maxCap := by decide
theorem reference_config_wf : ConfigWf Config.reference := ⟨by decide, by decide, by decide, by decide⟩
/-- Eight words fit the 32 bytes, nine do not. -/
theorem witness_loader_statements :
    4 * (List.replicate 8 (0 : Word)).length ≤ State.reset.code.cap ∧
    State.reset.code.cap < 4 * (List.replicate 9 (0 : Word)).length := by decide
theorem witness_RunEndsInTerminalState :
    (∃ t, runLoop 1 (placed 0xF0000000) = .terminal t) ∧ (∃ t, runLoop 1 (placed 0xD0000000) = .waiting t) :=
  ⟨⟨_, rfl⟩, ⟨_, rfl⟩⟩
theorem witness_FinalReportReadsState :
    State.reset.status = .running ∧ ({ State.reset with status := .halted } : State).status = .halted ∧
    (State.reset.raiseFault .outOfBounds .jmp).status = .faulted .outOfBounds .jmp := by decide

end Sys2Proof.Tests
end

/-! # Proofs about the state (10_state.md)

A step is reduced once to one case of `Ran` in the state inside the step (`step_next_ran`). What one instruction does to a
group of fields is then said once over `Ran`, and each statement about steps is read off these lemmas. -/

namespace Sys2Proof.Machine

/-! ## Registers, memory and the halt test -/

theorem State.reg_setReg_same (s : State) (n : Fin 8) (v : Word) : (s.setReg n v).reg n = v := by
  simp [State.reg_setReg]

theorem State.reg_setReg_other (s : State) {n m : Fin 8} (v : Word) (h : m ≠ n) : (s.setReg n v).reg m = s.reg m := by
  simp [State.reg_setReg, h]

@[simp] theorem State.writeResult_reg (s : State) (n : Fin 8) (v : Word) : (s.writeResult n v).reg = (s.setReg n v).reg := rfl

@[simp] theorem haltTest_reg (s : State) : (haltTest s).reg = s.reg := by
  rw [haltTest_eq]
  rfl

/-- A stored word leaves every byte outside its four as before (R33). -/
theorem Memory.byte_setWord_outside (m : Memory) {a b : Nat} (v : Word) (h : b < a ∨ a + 4 ≤ b) :
    (m.setWord a v).byte b = m.byte b := by
  rw [Memory.byte_setWord, if_neg (by omega), if_neg (by omega), if_neg (by omega), if_neg (by omega)]

/-- The halt test of a Running machine: Halted exactly when the flag is set (R66). -/
theorem haltTest_status_of_running {s : State} (h : s.status = .running) :
    (haltTest s).status = if s.halted = true then .halted else .running := by
  simp [haltTest_eq, h]

/-- The halt test leaves the status of a machine that is not Running: a fault skips it (R66, R71). -/
theorem haltTest_status_of_ne_running {s : State} (h : s.status ≠ .running) : (haltTest s).status = s.status := by
  simp [haltTest_eq, h]

/-! ## From a step to the instruction it ran -/

theorem selectInstr_ok_of_lt {op : Nat} (h : op < 16) (rn rm : RegField) (dir : Dir) :
    ∃ i, selectInstr op rn rm dir = .ok i := by
  interval_cases op <;> exact ⟨_, rfl⟩

/-- Every word decodes, so the default arm of the dispatch is never taken (R55, R65). -/
theorem decode_total (w : Word) : ∃ i, decode w = .ok i :=
  selectInstr_ok_of_lt (decodeFields w).op.isLt _ _ _

theorem dispatch_of_decode {w : Word} {i : Instr} (h : decode w = .ok i) (run : Instr → State → Answer) (s : State) :
    dispatch run w s = run i s := by
  simp only [dispatch, h]

/-- Everything a step did that answers a next state: from Running, a failed fetch was reported, or the instruction at `pc` ran
in the state inside the step and the halt test was made (R63, R70). -/
theorem step_next_ran {s t : State} (h : step s = .next t) :
    s.status = .running ∧
      ((s.code.cap < s.pc + 4 ∧ t = s.raiseFault .outOfBounds .fetch) ∨
        (s.pc + 4 ≤ s.code.cap ∧
          ∃ i u, decode (s.code.word s.pc) = .ok i ∧ Ran (insideStep s) i u ∧ t = haltTest u)) := by
  obtain ⟨hrun, hfail | ⟨hb, u, hd, ht⟩⟩ := step_next_cases h
  · exact ⟨hrun, .inl hfail⟩
  · obtain ⟨i, hi⟩ := decode_total (s.code.word s.pc)
    rw [dispatch_of_decode hi] at hd
    exact ⟨hrun, .inr ⟨hb, i, u, hi, exec_next hd, ht⟩⟩

/-- A step whose fetch is in bounds and decodes to `i` ran `i`. -/
theorem step_next_ran_of_decode {s t : State} {i : Instr} (hb : s.pc + 4 ≤ s.code.cap)
    (hi : decode (s.code.word s.pc) = .ok i) (h : step s = .next t) :
    s.status = .running ∧ ∃ u, Ran (insideStep s) i u ∧ t = haltTest u := by
  obtain ⟨hrun, ⟨hout, -⟩ | ⟨-, j, u, hj, hran, ht⟩⟩ := step_next_ran h
  · omega
  · obtain rfl : i = j := Except.ok.inj (hi.symm.trans hj)
    exact ⟨hrun, u, hran, ht⟩

/-! ## What one instruction does to memory and to the streams -/

/-- No instruction writes code memory (R44). -/
theorem Ran.code_eq {s t : State} {i : Instr} (h : Ran s i t) : t.code = s.code := by
  cases h <;> rfl

/-- Data memory is as it was, or an in-bounds STR stored a word in it (R22, R84). -/
theorem Ran.data_cases {s t : State} {i : Instr} (h : Ran s i t) :
    t.data = s.data ∨
      ∃ (rn : RegField) (dir : Dir) (n : Fin 8), i = .str rn dir ∧ n.val = rn.toNat ∧ dir.toNat + 4 ≤ s.data.cap ∧
        t.data = s.data.setWord dir.toNat (s.reg n) := by
  cases h with
  | str rn dir n hn hb => exact .inr ⟨rn, dir, n, rfl, hn, hb, rfl⟩
  | _ => exact .inl rfl

/-- Only IN takes an input item, and it takes the first (R23). -/
theorem Ran.input_cases {s t : State} {i : Instr} (h : Ran s i t) :
    t.input = s.input ∨ ∃ rn item, i = .inp rn ∧ s.input = item :: t.input := by
  cases h with
  | inp rn n v rest hn hi => exact .inr ⟨rn, .value v, rfl, hi⟩
  | inpMalformed rn rest hn hi => exact .inr ⟨rn, .malformed, rfl, hi⟩
  | _ => exact .inl rfl

/-- Only OUT appends a record, the value of its register (R24). -/
theorem Ran.output_cases {s t : State} {i : Instr} (h : Ran s i t) :
    t.output = s.output ∨
      ∃ (rn : RegField) (n : Fin 8), i = .out rn ∧ n.val = rn.toNat ∧ t.output = s.output ++ [s.reg n] := by
  cases h with
  | out rn n hn => exact .inr ⟨rn, n, rfl, hn, rfl⟩
  | _ => exact .inl rfl

/-! ## What one instruction does to the status and to `pc` -/

/-- InvalidOperand is legal under every mnemonic whose instruction has a register field (R99, R103). -/
theorem legalFault_invalidOperand {i : Instr} {op : OpName} (hi : i.wellFormed = false) (ho : failName i = some op) :
    legalFault .invalidOperand op = true := by
  cases i with
  | nop | halt => cases ho
  | jmp | jz | jn => cases hi
  | _ =>
    cases ho
    rfl

/-- The status is as it was, or one of the 18 faults was taken and the halted flag is as it was (R71, R103). -/
theorem Ran.status_cases {s t : State} {i : Instr} (h : Ran s i t) :
    t.status = s.status ∨ ∃ k op, t.status = .faulted k op ∧ legalFault k op = true ∧ t.halted = s.halted := by
  cases h with
  | badOperand i op hi ho => exact .inr ⟨_, op, rfl, legalFault_invalidOperand hi ho, rfl⟩
  | ldrOut | strOut | jmpOut | jzOut | jnOut | inpMalformed => exact .inr ⟨_, _, rfl, rfl, rfl⟩
  | _ => exact .inl rfl

/-- `pc` stays within code memory: only a jump writes it, with a target whose word is in bounds (R26, R86). -/
theorem Ran.pc_le {s t : State} {i : Instr} (h : Ran s i t) (hpc : s.pc ≤ s.code.cap) : t.pc ≤ s.code.cap := by
  cases h with
  | jmp dir hb | jzTaken dir hb | jnTaken dir hb => exact Nat.le_of_add_right_le hb
  | _ => exact hpc

/-! ## Invariant and reset -/

/-- The part of the invariant about data memory: its capacity never changes, and a store keeps it canonical. -/
theorem Ran.data_wf {s t : State} {i : Instr} (h : Ran s i t) (hw : s.data.wf = true) :
    t.data.cap = s.data.cap ∧ t.data.wf = true := by
  rcases h.data_cases with hd | ⟨rn, dir, n, -, -, hb, hd⟩
  · rw [hd]
    exact ⟨rfl, hw⟩
  · rw [hd]
    exact ⟨rfl, Memory.wf_setWord _ _ hb hw⟩

/-- After the halt test of an instruction that ran from a Running state with the flag clear, the status is legal, and Halted
exactly when the flag is set (R26, R66). -/
theorem Ran.haltTest_status_inv {s t : State} {i : Instr} (h : Ran s i t) (hrun : s.status = .running)
    (hflag : s.halted = false) :
    ((haltTest t).status = .halted ↔ (haltTest t).halted = true) ∧ (haltTest t).status.legal = true := by
  rcases h.status_cases with hst | ⟨k, op, hst, hlegal, hkeep⟩
  · rw [haltTest_status_of_running (hst.trans hrun), haltTest_halted]
    cases t.halted <;> decide
  · rw [haltTest_status_of_ne_running (by simp [hst]), haltTest_halted, hkeep, hflag, hst]
    exact ⟨by simp, hlegal⟩

/-- A failed fetch keeps the invariant: the machine was Running, so the flag was clear, and the pair is legal (R70). -/
theorem State.Inv.raiseFault_fetch {s : State} (hinv : s.Inv) (hflag : s.halted = false) :
    (s.raiseFault .outOfBounds .fetch).Inv where
  pc_le := hinv.pc_le
  halted_iff := by simp [hflag]
  status_legal := rfl
  codeCap_le := hinv.codeCap_le
  dataCap_le := hinv.dataCap_le
  code_wf := hinv.code_wf
  data_wf := hinv.data_wf

/-- The rest of the cycle keeps the invariant of the fetched state: the instruction and the halt test. -/
theorem State.Inv.haltTest_ran {s u : State} {i : Instr} (hinv : s.Inv) (hrun : s.status = .running)
    (hb : s.pc + 4 ≤ s.code.cap) (hflag : s.halted = false) (hran : Ran (insideStep s) i u) : (haltTest u).Inv := by
  obtain ⟨hiff, hlegal⟩ := hran.haltTest_status_inv hrun hflag
  obtain ⟨hcap, hwf⟩ := hran.data_wf hinv.data_wf
  have hcode : u.code = s.code := hran.code_eq
  exact {
    pc_le := by rw [haltTest_pc, haltTest_code, hcode]; exact hran.pc_le hb
    halted_iff := hiff
    status_legal := hlegal
    codeCap_le := by rw [haltTest_code, hcode]; exact hinv.codeCap_le
    dataCap_le := by rw [haltTest_data, hcap]; exact hinv.dataCap_le
    code_wf := by rw [haltTest_code, hcode]; exact hinv.code_wf
    data_wf := by rw [haltTest_data]; exact hwf }

/-- Settles O49: by the two ways a step ends, a failed fetch and an instruction that ran. -/
theorem stepKeepsInvariant : Obligations.StepKeepsInvariant := by
  intro s t hinv h
  obtain ⟨hrun, hstep⟩ := step_next_ran h
  have hflag : s.halted = false := by simpa [hrun] using hinv.halted_iff
  rcases hstep with ⟨-, rfl⟩ | ⟨hb, i, u, -, hran, rfl⟩
  · exact hinv.raiseFault_fetch hflag
  · exact hinv.haltTest_ran hrun hb hflag hran

/-- The reset state of a machine whose parameters are in range satisfies the invariant (R113). -/
theorem inv_resetWith {cfg : Config} (h : ConfigWf cfg) (items : List InItem) : (State.resetWith cfg items).Inv where
  pc_le := Nat.zero_le _
  halted_iff := by simp [State.resetWith]
  status_legal := rfl
  codeCap_le := h.codeCap_le
  dataCap_le := h.dataCap_le
  code_wf := h.code_wf
  data_wf := h.data_wf

theorem params_wf : ConfigWf params := ⟨by decide, by decide, rfl, rfl⟩

/-- Settles O50: both are resets with parameters in range, the second with the capacities of the machine. -/
theorem invariantAtReset : Obligations.InvariantAtReset :=
  ⟨inv_resetWith params_wf [], fun _ items hc hd =>
    inv_resetWith ⟨hc, hd, rfl, rfl⟩ items⟩

/-! ## Frames and effects -/

/-- Settles O42: by `Ran.data_cases` only an in-bounds STR stores, and a store leaves the bytes outside its four. -/
theorem onlyStrWritesData : Obligations.OnlyStrWritesData := by
  intro s t a h hne
  obtain ⟨-, ⟨-, rfl⟩ | ⟨hb, i, u, hi, hran, rfl⟩⟩ := step_next_ran h
  · exact absurd rfl hne
  · rw [haltTest_data] at hne
    rcases hran.data_cases with hd | ⟨rn, dir, n, rfl, hn, hcap, hd⟩
    · exact absurd (congrArg (Memory.byte · a) hd) hne
    · have hcover : ¬ (a < dir.toNat ∨ dir.toNat + 4 ≤ a) := fun hout =>
        hne (hd ▸ Memory.byte_setWord_outside _ _ hout)
      exact ⟨hb, rn, dir, hi, by omega, hcap, by omega, by omega⟩

/-- The destination field of an ALU instruction (R73). -/
def aluDest : Instr → Option RegField
  | .add rn _ | .sub rn _ | .and rn _ | .or rn _ | .xor rn _ | .not rn => some rn
  | _ => none

/-- The destination field of an instruction that moves a value into a register without an ALU (R82, R83). -/
def moveDest : Instr → Option RegField
  | .mov rn _ | .ldr rn _ => some rn
  | _ => none

/-- An ALU instruction writes one result to its destination and to `last`, or takes InvalidOperand (R73, R99). -/
theorem Ran.alu_cases {s t : State} {i : Instr} {rn : RegField} (h : Ran s i t) (hd : aluDest i = some rn) :
    (∃ (n : Fin 8) (v : Word), n.val = rn.toNat ∧ t = s.writeResult n v) ∨
      ∃ op, t = s.raiseFault .invalidOperand op := by
  cases h with
  | badOperand i op => exact .inr ⟨op, rfl⟩
  | add _ _ n _ hn | sub _ _ n _ hn | and _ _ n _ hn | or _ _ n _ hn | xor _ _ n _ hn | not _ n hn =>
    obtain rfl := Option.some.inj hd
    exact .inl ⟨n, _, hn, rfl⟩
  | _ => cases hd

/-- MOV and LDR write one value to their destination, or fault (R82, R83). -/
theorem Ran.move_cases {s t : State} {i : Instr} {rn : RegField} (h : Ran s i t) (hd : moveDest i = some rn) :
    (∃ (n : Fin 8) (v : Word), n.val = rn.toNat ∧ t = s.writeMoved n v) ∨ ∃ k op, t = s.raiseFault k op := by
  cases h with
  | badOperand i op => exact .inr ⟨_, op, rfl⟩
  | ldrOut => exact .inr ⟨_, _, rfl⟩
  | mov _ _ n _ hn | ldr _ _ n hn =>
    obtain rfl := Option.some.inj hd
    exact .inl ⟨n, _, hn, rfl⟩
  | _ => cases hd

/-- The two families together: a fault, or one value written to the destination, and to `last` under an ALU instruction
alone. -/
theorem Ran.dest_cases {s t : State} {i : Instr} {rn : RegField} (h : Ran s i t)
    (hd : aluDest i = some rn ∨ moveDest i = some rn) :
    (∃ k op, t = s.raiseFault k op) ∨ ∃ (n : Fin 8) (v : Word), n.val = rn.toNat ∧
      (aluDest i = some rn ∧ t = s.writeResult n v ∨ t = s.writeMoved n v) := by
  rcases hd with hd | hd
  · rcases h.alu_cases hd with ⟨n, v, hn, ht⟩ | ⟨op, ht⟩
    · exact .inr ⟨n, v, hn, .inl ⟨hd, ht⟩⟩
    · exact .inl ⟨_, op, ht⟩
  · rcases h.move_cases hd with ⟨n, v, hn, ht⟩ | hfault
    · exact .inr ⟨n, v, hn, .inr ht⟩
    · exact .inl hfault

/-- An instruction that is no ALU instruction, NOP or HALT leaves `last` (R16, D6). -/
theorem Ran.last_eq {s t : State} {i : Instr} (h : Ran s i t) (hd : aluDest i = none) (hnop : i ≠ .nop)
    (hhalt : i ≠ .halt) : t.last = s.last := by
  cases h with
  | nop => exact absurd rfl hnop
  | halt => exact absurd rfl hhalt
  | add | sub | and | or | xor | not => cases hd
  | _ => rfl

/-- A register write by number: every other register is as before (R13). -/
theorem State.reg_setReg_of_val_ne {s : State} {n m : Fin 8} {k : Nat} (v : Word) (hn : n.val = k) (hm : m.val ≠ k) :
    (s.setReg n v).reg m = s.reg m :=
  State.reg_setReg_other s v fun e => hm (e ▸ hn)

/-- Settles O43: each of the eight writes its destination by `writeResult` or `writeMoved`, or raises a fault. -/
theorem registerInstructionsFrame : Obligations.RegisterInstructionsFrame := by
  intro i rn s t hi h
  have hdest : aluDest i = some rn ∨ moveDest i = some rn := by
    rcases hi with ⟨rm, rfl | rfl | rfl | rfl | rfl | rfl⟩ | rfl | ⟨dir, rfl⟩ <;> simp [aluDest, moveDest]
  rcases (exec_next h).dest_cases hdest with ⟨k, op, rfl⟩ | ⟨n, v, hn, ⟨hd, rfl⟩ | rfl⟩
  · exact ⟨fun _ _ => rfl, fun _ => rfl, .inr ⟨k, op, rfl, rfl⟩, by simp⟩
  · refine ⟨fun m hm => State.reg_setReg_of_val_ne v hn hm, ?_, .inl rfl, by simp⟩
    rintro (⟨rm, rfl⟩ | ⟨dir, rfl⟩ | hst)
    · cases hd
    · cases hd
    · exact absurd rfl hst
  · exact ⟨fun m hm => State.reg_setReg_of_val_ne v hn hm, fun _ => rfl, .inl rfl, by simp⟩

/-- STR stores its register's word in bounds, or raises a fault under its own name (R84, R99, R103). -/
theorem Ran.str_cases {s t : State} {rn : RegField} {dir : Dir} (h : Ran s (.str rn dir) t) :
    (∃ v, t = s.setMem .data (s.data.setWord dir.toNat v)) ∨ ∃ k, t = s.raiseFault k .str := by
  cases h with
  | badOperand i op hi ho =>
    obtain rfl := Option.some.inj ho
    exact .inr ⟨_, rfl⟩
  | str rn dir n => exact .inl ⟨_, rfl⟩
  | strOut => exact .inr ⟨_, rfl⟩

/-- Settles O44: a fault changes the status alone, and a store the four bytes from `dir` on alone. -/
theorem strFrame : Obligations.StrFrame := by
  intro rn dir s t h
  rcases (exec_next h).str_cases with ⟨v, rfl⟩ | ⟨k, rfl⟩
  · refine ⟨rfl, rfl, rfl, rfl, rfl, rfl, rfl, rfl, rfl, .inl rfl, fun _ => rfl, fun a ha => ?_⟩
    have hout : a < dir.toNat ∨ dir.toNat + 4 ≤ a := by
      simp only [dataAddr, State.setMem_data_status, ne_eq, not_true_eq_false, or_false] at ha
      omega
    exact Memory.byte_setWord_outside _ v hout
  · exact ⟨rfl, rfl, rfl, rfl, rfl, rfl, rfl, rfl, rfl, .inr ⟨k, rfl⟩, fun _ => rfl, fun _ _ => rfl⟩

/-- `last` and the status after the halt test of an ALU instruction that ran from a Running state (R16, R73, D19). -/
theorem Ran.alu_last {s t : State} {i : Instr} {rn : RegField} (h : Ran s i t) (hd : aluDest i = some rn)
    (hrun : s.status = .running) :
    ((∃ n : Fin 8, n.val = rn.toNat ∧ (haltTest t).last = (haltTest t).reg n) ∧
        ∀ k op, (haltTest t).status ≠ .faulted k op) ∨
      ((∃ op, (haltTest t).status = .faulted .invalidOperand op) ∧ (haltTest t).last = s.last) := by
  rcases h.alu_cases hd with ⟨n, v, hn, rfl⟩ | ⟨op, rfl⟩
  · refine .inl ⟨⟨n, hn, by simp [State.reg_setReg_same]⟩, fun k op => ?_⟩
    rw [haltTest_status_of_running (s := s.writeResult n v) hrun]
    split <;> simp
  · refine .inr ⟨⟨op, ?_⟩, by simp⟩
    rw [haltTest_status_of_ne_running (by simp), State.raiseFault_status]

/-- Settles O47: by instruction, from `Ran.alu_last` for the ALU, the two meanings of NOP and HALT, and `Ran.last_eq`. -/
theorem lastAfterStep : Obligations.LastAfterStep := by
  intro s t i hb hi h
  obtain ⟨hrun, u, hran, rfl⟩ := step_next_ran_of_decode hb hi h
  cases i with
  | add | sub | and | or | xor | not => exact hran.alu_last rfl hrun
  | nop | halt =>
    cases hran with
    | badOperand _ _ _ ho => cases ho
    | _ => simp
  | mov | ldr | str | jmp | jz | jn | inp | out =>
    exact (haltTest_last u).trans (hran.last_eq rfl nofun nofun)

/-- Settles O48: a failed fetch moves no stream, and an instruction moves them by `Ran.input_cases`, `Ran.output_cases`. -/
theorem streamsMoveInOrder : Obligations.StreamsMoveInOrder := by
  intro s t h
  obtain ⟨-, ⟨-, rfl⟩ | ⟨-, i, u, hi, hran, rfl⟩⟩ := step_next_ran h
  · exact ⟨.inl rfl, .inl rfl⟩
  · rw [haltTest_input, haltTest_output]
    constructor
    · rcases hran.input_cases with he | ⟨rn, item, rfl, he⟩
      · exact .inl he
      · exact .inr ⟨⟨item, he⟩, rn, hi⟩
    · rcases hran.output_cases with he | ⟨rn, n, rfl, hn, he⟩
      · exact .inl he
      · exact .inr ⟨rn, n, hi, hn, he⟩

/-! ## The final report -/

/-- Settles O56: the report by the three statuses. -/
theorem finalReportReadsState : Obligations.FinalReportReadsState := by
  intro s
  refine ⟨fun h => ?running, fun h => ?halted, fun k op h => ?faulted⟩
  case running => simp only [finalReport, h]
  case halted => simp only [finalReport, h]
  case faulted => simp only [finalReport, h]

end Sys2Proof.Machine

/-! # Proofs about memory (20_memory.md)

The bytes of a stored word and the word of four bytes are said once as numbers; the four statements about accesses are then read
off what `read_word` and `write_word` answer in bounds and out of bounds, and the one about steps off `Ran`. -/

namespace Sys2Proof

/-! ## Bytes and words as numbers (R32, R33) -/

/-- Byte `k` of a word as a number: the bits from `8 * k` on, eight of them (R33). -/
theorem toNat_byteOfWord (w : Word) (k : Nat) : (byteOfWord w k).toNat = toU32 w / 2 ^ (8 * k) % 2 ^ 8 := by
  rw [byteOfWord, BitVec.extractLsb'_toNat, Nat.shiftRight_eq_div_pow, toU32]

/-- The pattern of a concatenation: the left part counts in units of the right part's size. -/
theorem toNat_append_eq_add {m n : Nat} (x : BitVec m) (y : BitVec n) :
    (x ++ y).toNat = 2 ^ n * x.toNat + y.toNat := by
  rw [BitVec.toNat_append, ← Nat.shiftLeft_add_eq_or_of_lt y.isLt, Nat.shiftLeft_eq, Nat.mul_comm]

/-- The pattern of a word made of four bytes, the first one least significant (R32, R35). -/
theorem toU32_wordOfBytes (b0 b1 b2 b3 : Byte) :
    toU32 (wordOfBytes b0 b1 b2 b3) = b0.toNat + 2 ^ 8 * b1.toNat + 2 ^ 16 * b2.toNat + 2 ^ 24 * b3.toNat := by
  simp only [toU32, wordOfBytes, toNat_append_eq_add]
  omega

end Sys2Proof

namespace Sys2Proof.Machine

/-! ## The bytes and the word that a store leaves -/

/-- The four bytes from the address of a stored word on are its bytes, least significant first (R33). -/
theorem Memory.byte_setWord_at (m : Memory) (a : Nat) (v : Word) {k : Nat} (hk : k < 4) :
    (m.setWord a v).byte (a + k) = byteOfWord v k := by
  rw [Memory.byte_setWord]
  interval_cases k <;> simp

theorem Memory.toNat_byte_setWord_at (m : Memory) (a : Nat) (v : Word) {k : Nat} (hk : k < 4) :
    ((m.setWord a v).byte (a + k)).toNat = toU32 v / 2 ^ (8 * k) % 2 ^ 8 := by
  rw [m.byte_setWord_at a v hk, toNat_byteOfWord]

/-- The word at the address of a store is the word stored (R34). -/
theorem Memory.word_setWord_same (m : Memory) (a : Nat) (v : Word) : (m.setWord a v).word a = v := by
  simp [Memory.word, Memory.byte_setWord, wordOfBytes_byteOfWord]

/-! ## The two accesses, in bounds and out of bounds (R31) -/

theorem Memory.readWord_of_inBounds {m : Memory} {a : Int} (h : 0 ≤ a ∧ a + 4 ≤ (m.cap : Int)) :
    m.readWord a = .ok (m.word a.toNat) :=
  (m.readWord_ok_iff a _).2 ⟨h, rfl⟩

theorem Memory.readWord_of_not_inBounds {m : Memory} {a : Int} (h : ¬ (0 ≤ a ∧ a + 4 ≤ (m.cap : Int))) :
    m.readWord a = .error .outOfBounds :=
  (m.readWord_error_iff a _).2 ⟨h, rfl⟩

theorem Memory.writeWord_of_inBounds {m : Memory} {a : Int} (v : Word) (h : 0 ≤ a ∧ a + 4 ≤ (m.cap : Int)) :
    m.writeWord a v = .ok (m.setWord a.toNat v) :=
  (m.writeWord_ok_iff a v _).2 ⟨h, rfl⟩

theorem Memory.writeWord_of_not_inBounds {m : Memory} {a : Int} (v : Word) (h : ¬ (0 ≤ a ∧ a + 4 ≤ (m.cap : Int))) :
    m.writeWord a v = .error .outOfBounds :=
  (m.writeWord_error_iff a v _).2 ⟨h, rfl⟩

/-! ## The statements -/

/-- Settles O37: each access by its two cases. -/
theorem boundRule : Obligations.BoundRule := fun _ _ v =>
  ⟨fun h => ⟨⟨_, Memory.readWord_of_inBounds h⟩, _, Memory.writeWord_of_inBounds v h⟩,
    fun h => ⟨Memory.readWord_of_not_inBounds h, Memory.writeWord_of_not_inBounds v h⟩⟩

/-- Settles O38: the word read is made of the four bytes. -/
theorem readIsLittleEndian : Obligations.ReadIsLittleEndian := fun _ _ =>
  ⟨fun h => ⟨_, Memory.readWord_of_inBounds h, toU32_wordOfBytes _ _ _ _⟩,
    fun h => Memory.readWord_of_not_inBounds (by omega)⟩

/-- Settles O39: the memory left is `setWord`'s, known byte by byte. -/
theorem writeIsLittleEndian : Obligations.WriteIsLittleEndian := by
  intro m a v
  refine ⟨fun h => ?_, fun h => Memory.writeWord_of_not_inBounds v (by omega)⟩
  have hbyte {k : Nat} (hk : k < 4) := m.toNat_byte_setWord_at a.toNat v hk
  exact ⟨m.setWord a.toNat v, Memory.writeWord_of_inBounds v h, rfl,
    by simpa using hbyte (k := 0) (by decide), hbyte (by decide), hbyte (by decide), hbyte (by decide),
    fun b hb => m.byte_setWord_outside v hb⟩

/-- Settles O40: a store keeps the capacity, so the address is in bounds for the read too, and the word there is the one stored. -/
theorem readAfterWrite : Obligations.ReadAfterWrite := fun m a v h =>
  ⟨m.setWord a.toNat v, Memory.writeWord_of_inBounds v h, by
    rw [Memory.readWord_of_inBounds (m := m.setWord a.toNat v) h, Memory.word_setWord_same]⟩

/-- No instruction changes the capacity of data memory: a store keeps it (R6, R33). -/
theorem Ran.data_cap_eq {s t : State} {i : Instr} (h : Ran s i t) : t.data.cap = s.data.cap := by
  rcases h.data_cases with hd | ⟨_, _, _, -, -, -, hd⟩
  · rw [hd]
  · rw [hd, Memory.setWord_cap]

/-- Settles O41: a failed fetch changes the status alone, and no instruction writes code memory or a capacity. -/
theorem codeIsConstant : Obligations.CodeIsConstant := by
  intro s t h
  obtain ⟨-, ⟨-, rfl⟩ | ⟨-, i, u, -, hran, rfl⟩⟩ := step_next_ran h
  · exact ⟨rfl, rfl⟩
  · rw [haltTest_code, haltTest_data]
    exact ⟨hran.code_eq, hran.data_cap_eq⟩

end Sys2Proof.Machine

/-! # Proofs about the encoding (30_encoding.md)

The four fields carry every bit but the reserved ones, so the statements about words follow from the two round trips between
words and fields. What an instruction keeps of the fields it was selected from is said once (`selectInstr_ok_fields`), with each
form's bits written as four masks, one per field. -/

namespace Sys2Proof

/-! ## Words and fields (R48, R49, R57) -/

/-- The pattern of a canonical word: each field at its weight (R57). -/
theorem toNat_encodeFields (f : Fields) :
    (encodeFields f).toNat = f.op.toNat * 2 ^ 28 + f.rn.toNat * 2 ^ 24 + f.rm.toNat * 2 ^ 20 + f.dir.toNat := by
  simp only [encodeFields, toNat_append_eq_add, BitVec.toNat_zero]
  omega

/-- A field of a word as a number: the bits from `k` on, `n` of them (R49). -/
theorem toNat_field (w : Word) (k n : Nat) : (w.extractLsb' k n).toNat = toU32 w / 2 ^ k % 2 ^ n := by
  rw [BitVec.extractLsb'_toNat, Nat.shiftRight_eq_div_pow, toU32]

/-- Settles O3: each field is a slice of the word, known as a number by `toNat_field`. -/
theorem decoderTakesShiftedFields : Obligations.DecoderTakesShiftedFields := fun w =>
  ⟨toNat_field w 28 4, toNat_field w 24 4, toNat_field w 20 4,
    (toNat_field w 0 16).trans (by rw [pow_zero, Nat.div_one])⟩

theorem Fields.eq_of_toNat_eq {f g : Fields} (hop : f.op.toNat = g.op.toNat) (hrn : f.rn.toNat = g.rn.toNat)
    (hrm : f.rm.toNat = g.rm.toNat) (hdir : f.dir.toNat = g.dir.toNat) : f = g := by
  cases f
  cases g
  rw [Fields.mk.injEq]
  exact ⟨BitVec.eq_of_toNat_eq hop, BitVec.eq_of_toNat_eq hrn, BitVec.eq_of_toNat_eq hrm, BitVec.eq_of_toNat_eq hdir⟩

/-- The decoder reads every field back from the place its weight gives it (R57). -/
theorem decodeFields_encodeFields (f : Fields) : decodeFields (encodeFields f) = f := by
  obtain ⟨hop, hrn, hrm, hdir⟩ := decoderTakesShiftedFields (encodeFields f)
  rw [toU32, toNat_encodeFields] at hop hrn hrm hdir
  apply Fields.eq_of_toNat_eq <;> omega

/-- Only the reserved bits of a word are lost in its fields (R50, R57). -/
theorem encodeFields_decodeFields (w : Word) : encodeFields (decodeFields w) = w &&& 0xFFF0FFFF#32 := by
  apply BitVec.eq_of_getLsbD_eq
  intro i h
  simp only [encodeFields, decodeFields, BitVec.getLsbD_append, BitVec.getLsbD_extractLsb', BitVec.getLsbD_and]
  interval_cases i <;> simp

/-- Bits 31 to 28 hold the opcode, so bit 31 is set from opcode 8 on (R57). -/
theorem signed_encodeFields_neg_iff (f : Fields) : signed (encodeFields f) < 0 ↔ 8 ≤ f.op.toNat := by
  rw [signed, BitVec.toInt_neg_iff, toNat_encodeFields]
  omega

/-- The reserved bits of a canonical word are 0 (R57). -/
theorem reserved_encodeFields (f : Fields) : (encodeFields f).extractLsb' 16 4 = 0 := by
  apply BitVec.eq_of_toNat_eq
  rw [toNat_field, toU32, toNat_encodeFields]
  show _ = 0
  omega

/-- The fields of a word are those of the word with its reserved bits cleared (R50). -/
theorem decodeFields_clear (w : Word) : decodeFields (w &&& 0xFFF0FFFF#32) = decodeFields w := by
  rw [← encodeFields_decodeFields, decodeFields_encodeFields]

/-! ## Instructions and their fields (R51, R52) -/

/-- The fields of an instruction's canonical word. -/
def Instr.fields (i : Instr) : Fields := ⟨i.opcode, i.rnField, i.rmField, i.dirField⟩

theorem encode_eq (i : Instr) : encode i = encodeFields i.fields := rfl

/-- The fields of a word, each masked by a field of another. -/
def Fields.and (f g : Fields) : Fields := ⟨f.op &&& g.op, f.rn &&& g.rn, f.rm &&& g.rm, f.dir &&& g.dir⟩

theorem encodeFields_and (f g : Fields) : encodeFields (f.and g) = encodeFields f &&& encodeFields g := by
  apply BitVec.eq_of_getLsbD_eq
  intro i h
  simp only [encodeFields, Fields.and, BitVec.getLsbD_append, BitVec.getLsbD_and]
  interval_cases i <;> simp

/-- The bits of each field that an instruction of each form uses: all or none (R51). -/
def Form.usedFields : Form → Fields
  | .z => ⟨.allOnes 4, 0, 0, 0⟩
  | .rr => ⟨.allOnes 4, .allOnes 4, .allOnes 4, 0⟩
  | .r => ⟨.allOnes 4, .allOnes 4, 0, 0⟩
  | .rd => ⟨.allOnes 4, .allOnes 4, 0, .allOnes 16⟩
  | .d => ⟨.allOnes 4, 0, 0, .allOnes 16⟩

theorem Form.usedFields_op (fm : Form) : fm.usedFields.op = BitVec.allOnes 4 := by
  cases fm <;> rfl

theorem encodeFields_usedFields (fm : Form) : encodeFields fm.usedFields = fm.usedBits := by
  cases fm <;> rfl

/-- No form uses a reserved bit (R50). -/
theorem reserved_and_usedBits (fm : Form) : 0xFFF0FFFF#32 &&& fm.usedBits = fm.usedBits := by
  cases fm <;> rfl

/-- An opcode selects the instruction that has it, with the given fields where its form uses them and zeros elsewhere. -/
theorem selectInstr_ok_fields {f : Fields} {i : Instr} (h : selectInstr f.op.toNat f.rn f.rm f.dir = .ok i) :
    i.fields = f.and i.form.usedFields := by
  obtain ⟨⟨op, hop⟩, rn, rm, dir⟩ := f
  change selectInstr op rn rm dir = .ok i at h
  unfold selectInstr at h
  split at h <;> cases h <;>
    simp [Instr.fields, Instr.opcode, Instr.rnField, Instr.rmField, Instr.dirField, Instr.form, Fields.and,
      Form.usedFields, -BitVec.reduceAllOnes]

/-- What a word decodes to has the word's fields where its form uses them and zeros elsewhere (R49, R51). -/
theorem decode_ok_fields {w : Word} {i : Instr} (h : decode w = .ok i) :
    i.fields = (decodeFields w).and i.form.usedFields :=
  selectInstr_ok_fields h

theorem selectInstr_ok_lt {op : Nat} {rn rm : RegField} {dir : Dir} {i : Instr} (h : selectInstr op rn rm dir = .ok i) :
    op < 16 := by
  unfold selectInstr at h
  split at h
  case h_17 => cases h
  all_goals decide

theorem selectInstr_fields (i : Instr) : selectInstr i.opcode.toNat i.rnField i.rmField i.dirField = .ok i := by
  cases i <;> rfl

/-! ## The statements -/

/-- Settles O1: the fields of the canonical word are the instruction's own, and they select it. -/
theorem decodeOfEncode : Obligations.DecodeOfEncode := by
  intro i
  rw [decode, encode, decodeFields_encodeFields]
  exact selectInstr_fields i

/-- Settles O5: masking the word's fields is masking the word, and no form uses the reserved bits. -/
theorem unusedFieldsIgnored : Obligations.UnusedFieldsIgnored := by
  intro w i h
  calc encode i
      = encodeFields ((decodeFields w).and i.form.usedFields) := by rw [encode_eq, decode_ok_fields h]
    _ = w &&& 0xFFF0FFFF#32 &&& i.form.usedBits := by
        rw [encodeFields_and, encodeFields_decodeFields, encodeFields_usedFields]
    _ = w &&& i.form.usedBits := by rw [BitVec.and_assoc, reserved_and_usedBits]

/-- A canonical word has 0 in every bit its form does not use: it is the masked word of the instruction it decodes to. -/
theorem encode_and_not_usedBits (i : Instr) : encode i &&& ~~~ i.form.usedBits = 0 := by
  rw [unusedFieldsIgnored _ i (decodeOfEncode i), BitVec.and_assoc, BitVec.and_not_self]
  exact BitVec.and_zero

/-- Settles O2: the round trips, the weights, the sign and the zeros, each a lemma above. -/
theorem canonicalEncoding : Obligations.CanonicalEncoding :=
  ⟨toNat_encodeFields, decodeFields_encodeFields, encodeFields_decodeFields, signed_encodeFields_neg_iff,
    encode_and_not_usedBits⟩

/-- Settles O4: the fields of a word are those of the word with its reserved bits cleared, and decoding looks at the fields. -/
theorem reservedBitsIgnored : Obligations.ReservedBitsIgnored := by
  refine ⟨fun w w' h => ?_, fun i => reserved_encodeFields i.fields⟩
  have hf : decodeFields w = decodeFields w' := by rw [← decodeFields_clear w, h, decodeFields_clear w']
  exact ⟨hf, by rw [decode, decode, hf]⟩

/-- Settles O6: every form uses the whole opcode field, and the default arm is past the sixteen opcodes. -/
theorem everyWordIsAnInstruction : Obligations.EveryWordIsAnInstruction := by
  refine ⟨fun w => ?_, fun op rn rm dir =>
    ⟨fun ⟨_, h⟩ => selectInstr_ok_lt h, fun h => Machine.selectInstr_ok_of_lt h rn rm dir⟩⟩
  obtain ⟨i, h⟩ := Machine.decode_total w
  refine ⟨i, h, ?_⟩
  calc i.opcode
      = (decodeFields w).op &&& i.form.usedFields.op := congrArg Fields.op (decode_ok_fields h)
    _ = (decodeFields w).op := by rw [Form.usedFields_op, BitVec.and_allOnes]

/-- Settles O7: each word is evaluated. -/
theorem specWordsDecode : Obligations.SpecWordsDecode := by
  unfold Obligations.SpecWordsDecode
  decide

end Sys2Proof

/-! # Proofs about the control unit (40_control_unit_cycle.md)

One equation per way a step begins (terminal, fetch out of bounds, an instruction fetched), then what one instruction does to
`pc`, to the halted flag and to the status, said over `Ran`. The run loop rests on the one reason a Running machine can have for
taking no step: an IN with nothing to take. -/

namespace Sys2Proof.Machine

/-! ## One equation per way a step begins (R63, R67, R70) -/

theorem step_of_terminal {s : State} {r : Fault} (h : terminalReason s.status = some r) : step s = .fault r := by
  simp only [step, cycle, h]

theorem step_of_fetch_out {s : State} (hrun : s.status = .running) (hb : s.code.cap < s.pc + 4) :
    step s = .next (s.raiseFault .outOfBounds .fetch) := by
  rcases fetch_cases s with ⟨hin, -⟩ | ⟨-, hf⟩
  · omega
  · simp only [step, cycle, (terminalReason_none_iff _).2 hrun, hf, failWith]

/-- The state inside a step, field by field (R10, R63). -/
theorem insideStep_eq (s : State) : insideStep s = { s with mbr := s.code.word s.pc, pc := s.pc + 4 } := rfl

theorem step_of_decode {s : State} {i : Instr} (hrun : s.status = .running) (hb : s.pc + 4 ≤ s.code.cap)
    (hi : decode (s.code.word s.pc) = .ok i) : step s = afterHandler (exec i (insideStep s)) := by
  rcases fetch_cases s with ⟨-, hf⟩ | ⟨hout, -⟩
  · simp only [step, cycle, (terminalReason_none_iff _).2 hrun, hf, dispatch_of_decode hi, insideStep]
  · omega

/-- Settles O26: the two equations of a Running machine, the second with the halt test written out per answer. -/
theorem stepRunsDecodedInstruction : Obligations.StepRunsDecodedInstruction := by
  refine ⟨fun s => step_of_fetch_out, fun s i hrun hb hi => ?_⟩
  rw [step_of_decode hrun hb hi, insideStep_eq]
  generalize exec i _ = answer
  cases answer <;> rfl

/-- Settles O29: each terminal status stops under its own name, and the host's reset sets Running. -/
theorem terminalStatesHaveNoStep : Obligations.TerminalStatesHaveNoStep :=
  ⟨fun _ _ hne h => hne (step_next_ran h).1,
    fun _ h => step_of_terminal (by rw [h]; rfl),
    fun _ _ _ h => step_of_terminal (by rw [h]; rfl),
    fun _ _ => rfl⟩

/-! ## Where `pc` is after a step (R64) -/

/-- `pc` after the instruction ran in a state whose `pc` is already advanced. -/
def pcAfter (s : State) : Instr → Nat
  | .jmp dir => if dir.toNat + 4 ≤ s.code.cap then dir.toNat else s.pc
  | .jz dir => if dir.toNat + 4 ≤ s.code.cap ∧ s.last = 0 then dir.toNat else s.pc
  | .jn dir => if dir.toNat + 4 ≤ s.code.cap ∧ signed s.last < 0 then dir.toNat else s.pc
  | _ => s.pc

theorem Ran.pc_eq {s t : State} {i : Instr} (h : Ran s i t) : t.pc = pcAfter s i := by
  cases h with
  | badOperand i _ hi =>
    cases i with
    | jmp | jz | jn => cases hi
    | _ => rfl
  | jmp dir hb => exact (if_pos hb).symm
  | jzTaken dir hb hl | jnTaken dir hb hl => exact (if_pos ⟨hb, hl⟩).symm
  | jzNot dir hb hl | jnNot dir hb hl => exact (if_neg fun hc => hl hc.2).symm
  | jmpOut dir hb => exact (if_neg (Nat.not_le.2 hb)).symm
  | jzOut dir hb | jnOut dir hb => exact (if_neg fun hc => Nat.not_le.2 hb hc.1).symm
  | _ => rfl

/-- Settles O27: `Ran.pc_eq` in the state inside the step, where `pc` is the fetch address plus 4. -/
theorem pcAfterStep : Obligations.PcAfterStep := by
  refine ⟨fun s t i hb hi h => ?fetched, fun s t hout h => ?failed⟩
  case fetched =>
    obtain ⟨-, u, hran, rfl⟩ := step_next_ran_of_decode hb hi h
    rw [haltTest_pc, hran.pc_eq]
    cases i <;> rfl
  case failed =>
    obtain ⟨-, ⟨-, rfl⟩ | ⟨hb, -⟩⟩ := step_next_ran h
    · rfl
    · omega

/-! ## The halted flag (R66) -/

theorem Ran.halted_iff {s t : State} {i : Instr} (h : Ran s i t) (hflag : s.halted = false) :
    t.halted = true ↔ i = .halt := by
  cases h with
  | halt => simp
  | badOperand i op _ ho =>
    have hi : i ≠ .halt := by
      rintro rfl
      cases ho
    simp [hi, hflag]
  | _ => simp [hflag]

/-- Settles O28: only HALT sets the flag, and after the halt test the status is Halted exactly when the flag is set. -/
theorem onlyHaltHalts : Obligations.OnlyHaltHalts := by
  intro s t hflag h
  obtain ⟨hrun, ⟨hout, rfl⟩ | ⟨hb, i, u, hi, hran, rfl⟩⟩ := step_next_ran h
  · simp [hflag, Nat.not_le.2 hout]
  · have hhalt : (haltTest u).halted = true ↔ s.pc + 4 ≤ s.code.cap ∧ decode (s.code.word s.pc) = .ok .halt := by
      rw [haltTest_halted, hran.halted_iff hflag, hi, Except.ok.injEq, and_iff_right hb]
    exact ⟨hhalt, (hran.haltTest_status_inv hrun hflag).1.trans hhalt⟩

/-! ## Faults (R70, R71, R106) -/

/-- The status is as it was, or a fault was raised under the instruction's own name: on the state as it was, or, for a malformed
item, on the state without that item (D7, D11). -/
theorem Ran.fault_cases {s t : State} {i : Instr} (h : Ran s i t) :
    t.status = s.status ∨ ∃ k op, failName i = some op ∧
      (t = s.raiseFault k op ∨ k = .malformedInput ∧ op = .inp ∧
        ∃ rest, s.input = .malformed :: rest ∧ t = ({ s with input := rest } : State).raiseFault k op) := by
  cases h with
  | badOperand i op _ ho => exact .inr ⟨_, op, ho, .inl rfl⟩
  | ldrOut | strOut | jmpOut | jzOut | jnOut => exact .inr ⟨_, _, rfl, .inl rfl⟩
  | inpMalformed rn rest _ hi => exact .inr ⟨_, _, rfl, .inr ⟨rfl, rfl, rest, hi, rfl⟩⟩
  | _ => exact .inl rfl

/-- The halt test makes no fault and passes over a state that has one (R66, R71). -/
theorem haltTest_eq_self_of_faulted {s : State} {k : FaultKind} {op : OpName}
    (h : (haltTest s).status = .faulted k op) : haltTest s = s :=
  if_neg fun hc => by
    rw [haltTest, if_pos hc] at h
    cases h

/-- A step that reports a fault after a fetch in bounds: the instruction reported its own name, on the state inside the step or,
for a malformed item, on that state without the item. -/
theorem step_faulted_cases {s t : State} {k : FaultKind} {op : OpName} (hb : s.pc + 4 ≤ s.code.cap)
    (h : step s = .next t) (hst : t.status = .faulted k op) :
    ∃ i, failName i = some op ∧
      (t = (insideStep s).raiseFault k op ∨ k = .malformedInput ∧ op = .inp ∧
        ∃ rest, s.input = .malformed :: rest ∧ t = ({ insideStep s with input := rest } : State).raiseFault k op) := by
  obtain ⟨i, hi⟩ := decode_total (s.code.word s.pc)
  obtain ⟨hrun, u, hran, rfl⟩ := step_next_ran_of_decode hb hi h
  have hself := haltTest_eq_self_of_faulted hst
  rw [hself] at hst ⊢
  rcases hran.fault_cases with hkeep | ⟨k', op', hname, hu⟩
  · cases hst.symm.trans (hkeep.trans hrun)
  · have hpair : Status.faulted k' op' = .faulted k op := by
      rcases hu with rfl | ⟨-, -, rest, -, rfl⟩ <;> exact hst
    cases hpair
    exact ⟨i, hname, hu⟩

/-- FETCH is no instruction's name (D13). -/
theorem failName_ne_fetch (i : Instr) : failName i ≠ some .fetch := by
  cases i <;> exact nofun

/-- Settles O31: a failed fetch is the fault transition, and after a fetch in bounds the name reported is an instruction's. -/
theorem fetchFailureChangesStatusOnly : Obligations.FetchFailureChangesStatusOnly := by
  refine fun s hrun => ⟨step_of_fetch_out hrun, fun t k h hst => ?_⟩
  by_contra hb
  obtain ⟨i, hname, -⟩ := step_faulted_cases (Nat.not_lt.1 hb) h hst
  exact failName_ne_fetch i hname

/-- Settles O32: by the two states on which a handler raises its fault. -/
theorem handlerFailureIsPrecise : Obligations.HandlerFailureIsPrecise := by
  intro s t k op hb h hst
  obtain ⟨i, -, rfl | ⟨hk, hop, rest, hin, rfl⟩⟩ := step_faulted_cases hb h hst
  · exact ⟨rfl, .inl rfl⟩
  · exact ⟨rfl, .inr ⟨hk, hop, hin⟩⟩

/-! ## When a Running machine has no step (R96, R121) -/

/-- A check or an access answers when what follows it does: its failure is a next state (R104). -/
theorem orFail_answers {α : Type} {op : OpName} {r : Except FaultKind α} {s : State} {k : α → Answer}
    (hk : ∀ x, ∃ t, k x = .next t) : ∃ t, orFail op r s k = .next t := by
  cases r with
  | ok x => exact hk x
  | error kind => exact ⟨_, rfl⟩

theorem formRR_answers {op : OpName} {rn rm : RegField} {s : State} {k : Fin 8 → Fin 8 → Answer}
    (hk : ∀ n m, ∃ t, k n m = .next t) : ∃ t, formRR op rn rm s k = .next t :=
  orFail_answers fun n => orFail_answers fun m => hk n m

/-- IN answers, unless its register is valid and the input exhausted (R91, R96). -/
theorem execIn_cases (rn : RegField) (s : State) :
    (∃ t, execIn rn s = .next t) ∨ execIn rn s = .fault .inputExhausted ∧ s.input = [] ∧ rn.toNat < 8 := by
  unfold execIn
  by_cases hn : rn.toNat < 8
  · rw [formR_valid hn]
    rcases inPop_cases s with ⟨hi, hp⟩ | ⟨item, rest, -, hp⟩
    · exact .inr ⟨by simp only [hp], hi, hn⟩
    · rw [hp]
      cases item <;> exact .inl ⟨_, rfl⟩
  · exact .inl ⟨_, formR_invalid hn⟩

/-- Every instruction answers with a next state, but for the waiting IN. -/
theorem exec_cases (i : Instr) (s : State) :
    (∃ t, exec i s = .next t) ∨
      exec i s = .fault .inputExhausted ∧ s.input = [] ∧ ∃ rn, i = .inp rn ∧ rn.toNat < 8 := by
  cases i with
  | inp rn =>
    rcases execIn_cases rn s with hnext | ⟨hwait, hin, hn⟩
    · exact .inl hnext
    · exact .inr ⟨hwait, hin, rn, rfl, hn⟩
  | nop | halt => exact .inl ⟨_, rfl⟩
  | add | sub | and | or | xor | mov => exact .inl (formRR_answers fun _ _ => ⟨_, rfl⟩)
  | not | out | jmp | jz | jn => exact .inl (orFail_answers fun _ => ⟨_, rfl⟩)
  | ldr | str => exact .inl (orFail_answers fun _ => orFail_answers fun _ => ⟨_, rfl⟩)

/-- A Running machine steps, unless it is at an IN with a valid register and an exhausted input. -/
theorem step_running_cases {s : State} (hrun : s.status = .running) :
    (∃ t, step s = .next t) ∨
      step s = .fault .inputExhausted ∧ s.pc + 4 ≤ s.code.cap ∧ s.input = [] ∧
        ∃ rn : RegField, rn.toNat < 8 ∧ decode (s.code.word s.pc) = .ok (.inp rn) := by
  by_cases hb : s.pc + 4 ≤ s.code.cap
  · obtain ⟨i, hi⟩ := decode_total (s.code.word s.pc)
    rw [step_of_decode hrun hb hi]
    rcases exec_cases i (insideStep s) with ⟨t, ht⟩ | ⟨hwait, hin, rn, rfl, hn⟩
    · exact .inl ⟨haltTest t, by rw [ht]; rfl⟩
    · exact .inr ⟨by rw [hwait]; rfl, hb, hin, rn, hn, hi⟩
  · exact .inl ⟨_, step_of_fetch_out hrun (Nat.not_le.1 hb)⟩

/-! ## The run loop (R67, R68, R96) -/

theorem runLoop_of_terminal {s : State} (h : s.status ≠ .running) (fuel : Nat) : runLoop fuel s = .terminal s := by
  cases fuel <;> exact if_neg h

theorem runLoop_zero_of_running {s : State} (h : s.status = .running) : runLoop 0 s = .outOfFuel s := if_pos h

theorem runLoop_succ_of_next {s t : State} (h : step s = .next t) (fuel : Nat) :
    runLoop (fuel + 1) s = runLoop fuel t := by
  simp only [runLoop, (step_next_ran h).1, h, if_true]

theorem runLoop_succ_of_wait {s : State} (hrun : s.status = .running) (h : step s = .fault .inputExhausted)
    (fuel : Nat) : runLoop (fuel + 1) s = .waiting s := by
  simp only [runLoop, hrun, h, if_true]

/-- The ends a bounded run can have: terminal, waiting on an exhausted input, or out of fuel. -/
def RunEnd.Legal : RunEnd → Prop
  | .terminal t => t.status ≠ .running
  | .waiting t => t.status = .running ∧ t.input = []
  | .outOfFuel t => t.status = .running
  | .stopped _ _ | .refused _ _ => False

theorem runLoop_legal (fuel : Nat) (s : State) : (runLoop fuel s).Legal := by
  induction fuel generalizing s with
  | zero =>
    by_cases hrun : s.status = .running
    · rwa [runLoop_zero_of_running hrun]
    · rwa [runLoop_of_terminal hrun]
  | succ fuel ih =>
    by_cases hrun : s.status = .running
    · rcases step_running_cases hrun with ⟨t, ht⟩ | ⟨hwait, -, hin, -⟩
      · rw [runLoop_succ_of_next ht]
        exact ih t
      · rw [runLoop_succ_of_wait hrun hwait]
        exact ⟨hrun, hin⟩
    · rwa [runLoop_of_terminal hrun]

/-- A state that is not Running has a final report (R29). -/
theorem finalReport_isSome {s : State} (h : s.status ≠ .running) : (finalReport s).isSome = true := by
  obtain ⟨-, hhalted, hfaulted⟩ := finalReportReadsState s
  cases hst : s.status with
  | running => exact absurd hst h
  | halted => rw [hhalted hst, Option.isSome_some]
  | faulted k op => rw [hfaulted k op hst, Option.isSome_some]

/-- Settles O55: every run's end is legal, read per kind of end. -/
theorem runEndsInTerminalState : Obligations.RunEndsInTerminalState := by
  intro fuel s
  have hlegal := runLoop_legal fuel s
  refine ⟨fun t h => ?terminal, fun t h => ?waiting, fun r t h => ?stopped, fun r t h => ?refused⟩ <;> rw [h] at hlegal
  case terminal => exact ⟨hlegal, finalReport_isSome hlegal⟩
  case waiting => exact hlegal
  case stopped => exact hlegal
  case refused => exact hlegal

end Sys2Proof.Machine

/-! # Proofs about arithmetic and logic (41_arithmetic_logic.md)

ADD and SUB share one meaning, AND, OR and XOR another: what each answers with valid registers is said once, as one `writeResult`,
and with a bad one `formRR_invalid` says it. What is left of a statement is its opcode and a fact about words. -/

namespace Sys2Proof

/-! ## Decoding by opcode (R49, R52) -/

/-- The top four bits of a word select its instruction, and the other fields are slices of the word. -/
theorem decode_of_opcode {w : Word} {op : BitVec 4} (h : w.extractLsb' 28 4 = op) :
    decode w = selectInstr op.toNat (w.extractLsb' 24 4) (w.extractLsb' 20 4) (w.extractLsb' 0 16) :=
  h ▸ rfl

/-! ## Signs of the results (R76 to R80) -/

theorem signed_neg_iff_msb (a : Word) : signed a < 0 ↔ a.msb = true := by
  rw [BitVec.msb_eq_toInt, decide_eq_true_iff, signed]

theorem signed_and_neg_iff (a b : Word) : signed (a &&& b) < 0 ↔ signed a < 0 ∧ signed b < 0 := by
  simp only [signed_neg_iff_msb, BitVec.msb_and, Bool.and_eq_true]

theorem signed_or_neg_iff (a b : Word) : signed (a ||| b) < 0 ↔ signed a < 0 ∨ signed b < 0 := by
  simp only [signed_neg_iff_msb, BitVec.msb_or, Bool.or_eq_true]

theorem signed_xor_neg_iff (a b : Word) : signed (a ^^^ b) < 0 ↔ ¬ (signed a < 0 ↔ signed b < 0) := by
  rw [signed_neg_iff_msb, signed_neg_iff_msb, signed_neg_iff_msb, BitVec.msb_xor, bne_iff_ne, ne_eq, Bool.eq_iff_iff]

/-- NOT's mask is all ones, so the exclusive or with it is the complement (R79, D5). -/
theorem xor_mask_eq_not (a : Word) : a ^^^ 0xFFFFFFFF#32 = ~~~ a := BitVec.xor_allOnes

/-- The complement as a signed value; it is in range for every word (R80). -/
theorem signed_not (a : Word) : signed (~~~ a) = - signed a - 1 := by
  simp only [signed, BitVec.toInt_eq_toNat_cond, BitVec.toNat_not]
  omega

end Sys2Proof

namespace Sys2Proof.Machine

/-! ## The two shared meanings (R73, R80) -/

theorem aluExact_valid {op : OpName} {f : Int → Int → Int} {rn rm : RegField} {s : State} (hn : rn.toNat < 8)
    (hm : rm.toNat < 8) :
    aluExact op f rn rm s = .next (s.writeResult ⟨rn.toNat, hn⟩
      (wrap32 (f (signed (s.reg ⟨rn.toNat, hn⟩)) (signed (s.reg ⟨rm.toNat, hm⟩))))) := by
  rw [aluExact, formRR_valid hn hm, params_arithOverflow, arithResult_wrap]

theorem aluBitwise_valid {op : OpName} {f : Word → Word → Word} {rn rm : RegField} {s : State} (hn : rn.toNat < 8)
    (hm : rm.toNat < 8) :
    aluBitwise op f rn rm s =
      .next (s.writeResult ⟨rn.toNat, hn⟩ (f (s.reg ⟨rn.toNat, hn⟩) (s.reg ⟨rm.toNat, hm⟩))) :=
  formRR_valid hn hm

/-- Form RR with either field above 7 takes the fault, whatever the instruction would do (R73, R99). -/
theorem formRR_of_seven_lt {op : OpName} {rn rm : RegField} {s : State} {k : Fin 8 → Fin 8 → Answer}
    (h : 7 < rn.toNat ∨ 7 < rm.toNat) : formRR op rn rm s k = .next (s.raiseFault .invalidOperand op) :=
  formRR_invalid (by omega)

/-! ## Equal operands (R75, R81) -/

/-- The wrapped difference is 0 for equal operands alone: it is the difference of the patterns (R75). -/
theorem wrap32_sub_eq_zero_iff (a b : Word) : wrap32 (signed a - signed b) = 0 ↔ a = b := by
  rw [wrap32_sub, sub_eq_zero]

/-- Writing a register's own value as the result changes `last` alone (R81). -/
theorem State.writeResult_reg_self (s : State) (n : Fin 8) : s.writeResult n (s.reg n) = s.setLast (s.reg n) :=
  congrArg (fun regs => { s with regs := regs, last := s.reg n }) (Vector.set_getElem_self n.isLt)

/-! ## The statements -/

/-- Settles O8: ADD is the exact meaning of the sum. -/
theorem addWritesWrappedSum : Obligations.AddWritesWrappedSum :=
  ⟨fun _ => decode_of_opcode, fun _ _ _ => aluExact_valid, fun _ _ _ => formRR_of_seven_lt⟩

/-- Settles O9: SUB is the exact meaning of the difference. -/
theorem subWritesWrappedDifference : Obligations.SubWritesWrappedDifference :=
  ⟨fun _ => decode_of_opcode, fun _ _ _ => aluExact_valid, fun _ _ _ => formRR_of_seven_lt, wrap32_sub_eq_zero_iff⟩

/-- Settles O10: AND is the bitwise meaning of the conjunction, and the sign is bit 31. -/
theorem andWritesConjunction : Obligations.AndWritesConjunction :=
  ⟨fun _ => decode_of_opcode, fun _ _ _ => aluBitwise_valid, fun _ _ _ => formRR_of_seven_lt, signed_and_neg_iff⟩

/-- Settles O11: OR is the bitwise meaning of the disjunction, and the sign is bit 31. -/
theorem orWritesDisjunction : Obligations.OrWritesDisjunction :=
  ⟨fun _ => decode_of_opcode, fun _ _ _ => aluBitwise_valid, fun _ _ _ => formRR_of_seven_lt, signed_or_neg_iff⟩

/-- Settles O12: XOR is the bitwise meaning of the exclusive or, and the sign is bit 31. -/
theorem xorWritesExclusiveOr : Obligations.XorWritesExclusiveOr :=
  ⟨fun _ => decode_of_opcode, fun _ _ _ => aluBitwise_valid, fun _ _ _ => formRR_of_seven_lt, signed_xor_neg_iff⟩

/-- Settles O13: form R with one register, and the mask is the complement. -/
theorem notWritesComplement : Obligations.NotWritesComplement := by
  refine ⟨fun _ => decode_of_opcode, fun _ _ => formR_valid, fun _ _ h => formR_invalid (Nat.not_lt.2 h), fun a => ?_⟩
  simp only [xor_mask_eq_not]
  exact ⟨signed_not a, BitVec.not_not⟩

/-- Settles O14: each of the five as one `writeResult`, with its operation on two equal operands worked out. -/
theorem sameRegisterOperands : Obligations.SameRegisterOperands := by
  refine fun s r h => ⟨?add, ?sub, ?and, ?or, ?xor⟩
  case add => exact (aluExact_valid h h).trans (by rw [← two_mul]; rfl)
  case sub => exact (aluExact_valid h h).trans (by rw [(wrap32_sub_eq_zero_iff _ _).2 rfl]; rfl)
  case and => exact (aluBitwise_valid h h).trans (by rw [BitVec.and_self, State.writeResult_reg_self]; rfl)
  case or => exact (aluBitwise_valid h h).trans (by rw [BitVec.or_self, State.writeResult_reg_self]; rfl)
  case xor => exact (aluBitwise_valid h h).trans (by rw [BitVec.xor_self]; rfl)

end Sys2Proof.Machine

/-! # Proofs about data moves (42_data_move.md)

LDR and STR share one address, `dir` zero-extended, so the bound of their access is said once as a fact about `dir`. The access
in bounds and the access out of bounds each get an equation, and a statement is its opcode, its register check and these. -/

namespace Sys2Proof.Machine

/-! ## The access at `dir` (R31, R53, R85) -/

/-- The bound rule at a data address is a bound on `dir` alone, which is never negative (R31, R53). -/
theorem dataAddr_inBounds_iff (dir : Dir) (cap : Nat) :
    (0 ≤ dataAddr dir ∧ dataAddr dir + 4 ≤ (cap : Int)) ↔ dir.toNat + 4 ≤ cap := by
  rw [dataAddr]
  omega

theorem memRead_dataAddr_of_le {s : State} {dir : Dir} (h : dir.toNat + 4 ≤ s.data.cap) :
    s.memRead .data (dataAddr dir) = .ok (s.data.word dir.toNat) :=
  Memory.readWord_of_inBounds ((dataAddr_inBounds_iff dir _).2 h)

theorem memRead_dataAddr_of_lt {s : State} {dir : Dir} (h : s.data.cap < dir.toNat + 4) :
    s.memRead .data (dataAddr dir) = .error .outOfBounds :=
  Memory.readWord_of_not_inBounds (mt (dataAddr_inBounds_iff dir _).1 (Nat.not_le.2 h))

theorem memWrite_dataAddr_of_le {s : State} {dir : Dir} (v : Word) (h : dir.toNat + 4 ≤ s.data.cap) :
    s.memWrite .data (dataAddr dir) v = .ok { s with data := s.data.setWord dir.toNat v } := by
  rw [State.memWrite, State.mem_data, Memory.writeWord_of_inBounds v ((dataAddr_inBounds_iff dir _).2 h)]
  rfl

theorem memWrite_dataAddr_of_lt {s : State} {dir : Dir} (v : Word) (h : s.data.cap < dir.toNat + 4) :
    s.memWrite .data (dataAddr dir) v = .error .outOfBounds := by
  rw [State.memWrite, State.mem_data,
    Memory.writeWord_of_not_inBounds v (mt (dataAddr_inBounds_iff dir _).1 (Nat.not_le.2 h))]

/-! ## LDR and STR with a valid register (R83, R84) -/

theorem execLdr_of_le {rn : RegField} {dir : Dir} {s : State} (hn : rn.toNat < 8) (hb : dir.toNat + 4 ≤ s.data.cap) :
    execLdr rn dir s = .next (s.writeMoved ⟨rn.toNat, hn⟩ (s.data.word dir.toNat)) := by
  rw [execLdr, formR_valid hn, memRead_dataAddr_of_le hb, orFail]

theorem execLdr_of_lt {rn : RegField} {dir : Dir} {s : State} (hn : rn.toNat < 8) (hb : s.data.cap < dir.toNat + 4) :
    execLdr rn dir s = .next (s.raiseFault .outOfBounds .ldr) := by
  rw [execLdr, formR_valid hn, memRead_dataAddr_of_lt hb, orFail, failWith]

theorem execStr_of_le {rn : RegField} {dir : Dir} {s : State} (hn : rn.toNat < 8) (hb : dir.toNat + 4 ≤ s.data.cap) :
    execStr rn dir s = .next { s with data := s.data.setWord dir.toNat (s.reg ⟨rn.toNat, hn⟩) } := by
  rw [execStr, formR_valid hn, memWrite_dataAddr_of_le _ hb, orFail]

theorem execStr_of_lt {rn : RegField} {dir : Dir} {s : State} (hn : rn.toNat < 8) (hb : s.data.cap < dir.toNat + 4) :
    execStr rn dir s = .next (s.raiseFault .outOfBounds .str) := by
  rw [execStr, formR_valid hn, memWrite_dataAddr_of_lt _ hb, orFail, failWith]

/-! ## The statements -/

/-- Settles O15: form RR with two valid registers, whose `writeMoved` leaves `last` as it was. -/
theorem movCopiesRegister : Obligations.MovCopiesRegister :=
  ⟨fun _ => decode_of_opcode, fun _ _ _ => formRR_valid, fun _ _ _ => formRR_of_seven_lt⟩

/-- Settles O16: the register check of form R, then the read at `dir` in bounds and out of bounds. -/
theorem ldrLoadsWord : Obligations.LdrLoadsWord :=
  ⟨fun _ => decode_of_opcode, fun _ _ _ => execLdr_of_le, fun _ _ _ h => formR_invalid (Nat.not_lt.2 h),
    fun _ _ _ => execLdr_of_lt⟩

/-- Settles O17: the register check of form R, then the write at `dir`, whose memory is known byte by byte. -/
theorem strStoresWord : Obligations.StrStoresWord := by
  refine ⟨fun _ => decode_of_opcode, fun s rn dir hn hb => ?stored, fun _ _ _ h => formR_invalid (Nat.not_lt.2 h),
    fun _ _ _ => execStr_of_lt⟩
  case stored =>
    have hbyte {k : Nat} (hk : k < 4) := s.data.byte_setWord_at dir.toNat (s.reg ⟨rn.toNat, hn⟩) hk
    exact ⟨_, execStr_of_le hn hb, rfl, rfl, hbyte (k := 0) (by decide), hbyte (k := 1) (by decide),
      hbyte (k := 2) (by decide), hbyte (k := 3) (by decide), fun _ ha => Memory.byte_setWord_outside _ _ ha⟩

end Sys2Proof.Machine

/-! # Proofs about control transfer (43_control_transfer.md)

The three jumps are the instructions of form D, so their frame is said once over `Ran` for that form. The target check is
`formD_valid` and `formD_of_lt`, and a conditional jump is one `setPc` of a conditional target. -/

namespace Sys2Proof

/-- A word is negative exactly when its bit 31 is set (R7, R89). -/
theorem signed_neg_iff_bit31 (v : Word) : signed v < 0 ↔ v.getLsbD 31 = true := by
  rw [signed_neg_iff_msb, BitVec.msb_eq_getLsbD_last]

/-- No word is both 0 and negative, so JZ and JN are never both taken (R88, R89). -/
theorem not_zero_and_signed_neg (v : Word) : ¬ (v = 0 ∧ signed v < 0) := by
  rintro ⟨rfl, hneg⟩
  exact absurd hneg (by decide)

end Sys2Proof

namespace Sys2Proof.Machine

/-! ## Target and condition (R86 to R89) -/

/-- Form D with a target out of bounds takes the fault, whatever the condition (R86, D8). -/
theorem formD_of_lt {op : OpName} {dir : Dir} {s : State} {k : Nat → Answer} (h : s.code.cap < dir.toNat + 4) :
    formD op dir s k = .next (s.raiseFault .outOfBounds op) :=
  formD_invalid (Nat.not_le.2 h)

/-- A jump taken on a condition is a jump to a conditional target: `pc` itself where it is not taken. -/
theorem State.ite_setPc (s : State) (a : Nat) (p : Prop) [Decidable p] :
    (if decide p then s.setPc a else s) = s.setPc (if p then a else s.pc) := by
  simp only [decide_eq_true_eq, apply_ite s.setPc]
  rfl

theorem execJz_of_le {dir : Dir} {s : State} (hb : dir.toNat + 4 ≤ s.code.cap) :
    execJz dir s = .next (s.setPc (if s.last = 0 then dir.toNat else s.pc)) := by
  rw [execJz, formD_valid hb, State.lastIsZero, State.ite_setPc]

theorem execJn_of_le {dir : Dir} {s : State} (hb : dir.toNat + 4 ≤ s.code.cap) :
    execJn dir s = .next (s.setPc (if signed s.last < 0 then dir.toNat else s.pc)) := by
  rw [execJn, formD_valid hb, State.lastIsNegative, State.ite_setPc]

/-- A jump writes `pc` alone, with `pc` itself when it is not taken, or raises OutOfBounds (R86 to R89). -/
theorem Ran.jump_cases {s t : State} {i : Instr} (h : Ran s i t) (hi : i.form = .d) :
    (∃ a, t = s.setPc a) ∨ ∃ op, t = s.raiseFault .outOfBounds op := by
  cases h with
  | badOperand i op hwf =>
    cases i with
    | jmp | jz | jn => cases hwf
    | _ => cases hi
  | jmp dir | jzTaken dir | jnTaken dir => exact .inl ⟨dir.toNat, rfl⟩
  | jzNot | jnNot => exact .inl ⟨s.pc, rfl⟩
  | jmpOut | jzOut | jnOut => exact .inr ⟨_, rfl⟩
  | _ => cases hi

/-! ## The statements -/

/-- Settles O45: a jump writes `pc` alone, and its fault the status alone. -/
theorem jumpFrame : Obligations.JumpFrame := by
  intro i dir s t hi h
  have hform : i.form = .d := by rcases hi with rfl | rfl | rfl <;> rfl
  rcases (exec_next h).jump_cases hform with ⟨a, rfl⟩ | ⟨op, rfl⟩
  · exact ⟨rfl, rfl, rfl, rfl, rfl, rfl, rfl, rfl, .inl rfl, fun _ => rfl, fun _ => rfl⟩
  · exact ⟨rfl, rfl, rfl, rfl, rfl, rfl, rfl, rfl, .inr ⟨op, rfl, rfl⟩, fun _ => rfl, fun _ => rfl⟩

/-- Settles O18: form D with its target in bounds and out of bounds. -/
theorem jmpSetsPc : Obligations.JmpSetsPc :=
  ⟨fun _ => decode_of_opcode, fun _ _ => formD_valid, fun _ _ => formD_of_lt⟩

/-- Settles O19: in bounds one conditional target, out of bounds the fault of form D before the condition is looked at. -/
theorem jzJumpsOnZero : Obligations.JzJumpsOnZero :=
  ⟨fun _ => decode_of_opcode, fun _ _ => execJz_of_le, fun _ _ => formD_of_lt⟩

/-- Settles O20: as JZ, with the sign of `last` as the condition, which is its bit 31. -/
theorem jnJumpsOnNegative : Obligations.JnJumpsOnNegative :=
  ⟨fun _ => decode_of_opcode, fun _ _ => execJn_of_le, fun _ _ => formD_of_lt,
    fun v => ⟨signed_neg_iff_bit31 v, not_zero_and_signed_neg v⟩⟩

end Sys2Proof.Machine

/-! # Proofs about input, output, NOP and HALT (44_io_system.md)

What IN answers is said once per head of the input stream (a value, a malformed item, nothing), with the register valid. A waiting
IN completes by the same equations, since the input of a machine that waits is what the environment delivers. -/

namespace Sys2Proof.Machine

/-! ## IN with a valid register (R91, R96) -/

theorem State.inPop_of_nil {s : State} (h : s.input = []) : s.inPop = none := by
  rw [State.inPop, h]

theorem State.inPop_of_cons {s : State} {item : InItem} {rest : List InItem} (h : s.input = item :: rest) :
    s.inPop = some (item, { s with input := rest }) := by
  rw [State.inPop, h]

theorem execIn_of_nil {rn : RegField} {s : State} (hn : rn.toNat < 8) (hi : s.input = []) :
    execIn rn s = .fault .inputExhausted := by
  rw [execIn, formR_valid hn, State.inPop_of_nil hi]

theorem execIn_of_value {rn : RegField} {s : State} {v : Word} {rest : List InItem} (hn : rn.toNat < 8)
    (hi : s.input = .value v :: rest) :
    execIn rn s = .next (({ s with input := rest } : State).writeMoved ⟨rn.toNat, hn⟩ v) := by
  rw [execIn, formR_valid hn, State.inPop_of_cons hi]

theorem execIn_of_malformed {rn : RegField} {s : State} {rest : List InItem} (hn : rn.toNat < 8)
    (hi : s.input = .malformed :: rest) :
    execIn rn s = failWith .malformedInput .inp { s with input := rest } := by
  rw [execIn, formR_valid hn, State.inPop_of_cons hi]

/-! ## What IN and OUT did (R91, R92) -/

/-- IN puts one value in its register, or raises a fault under its own name; beside that it can change the input alone. -/
theorem Ran.in_cases {s t : State} {rn : RegField} (h : Ran s (.inp rn) t) :
    (∃ (n : Fin 8) (v : Word) (rest : List InItem), n.val = rn.toNat ∧
        t = ({ s with input := rest } : State).writeMoved n v) ∨
      ∃ k rest, t = ({ s with input := rest } : State).raiseFault k .inp := by
  cases h with
  | badOperand i op hi ho =>
    obtain rfl := Option.some.inj ho
    exact .inr ⟨_, s.input, rfl⟩
  | inp rn n v rest hn => exact .inl ⟨n, v, rest, hn, rfl⟩
  | inpMalformed rn rest => exact .inr ⟨_, rest, rfl⟩

/-- OUT appends one record, or raises InvalidOperand. -/
theorem Ran.out_cases {s t : State} {rn : RegField} (h : Ran s (.out rn) t) :
    (∃ v, t = s.outPush v) ∨ t = s.raiseFault .invalidOperand .out := by
  cases h with
  | badOperand i op hi ho =>
    obtain rfl := Option.some.inj ho
    exact .inr rfl
  | out rn n => exact .inl ⟨_, rfl⟩

/-! ## The step around a handler (R63, R66) -/

/-- With the flag clear the halt test does nothing (R66). -/
theorem haltTest_of_flag_clear {s : State} (h : s.halted = false) : haltTest s = s :=
  if_neg (by simp [h])

/-- With the flag set the halt test of a Running machine makes it Halted (R66). -/
theorem haltTest_of_flag_set {s : State} (hrun : s.status = .running) (h : s.halted = true) :
    haltTest s = { s with status := .halted } :=
  if_pos ⟨hrun, h⟩

/-- A step ends in the state its handler answered, when that leaves the flag clear. -/
theorem step_of_exec_next {s t : State} {i : Instr} (hrun : s.status = .running) (hb : s.pc + 4 ≤ s.code.cap)
    (hi : decode (s.code.word s.pc) = .ok i) (h : exec i (insideStep s) = .next t) (hflag : t.halted = false) :
    step s = .next t := by
  rw [step_of_decode hrun hb hi, h, afterHandler, haltTest_of_flag_clear hflag]

/-- What the environment delivers to a machine that waits is all the input its IN finds (R96). -/
theorem insideStep_deliver_input {s : State} (h : s.input = []) (items : List InItem) :
    (insideStep (s.deliver items)).input = items := by
  rw [insideStep_eq, State.deliver_input, h, List.nil_append]

/-! ## The statements -/

/-- Settles O46: IN by `Ran.in_cases`, OUT by `Ran.out_cases`, NOP and HALT by the one state each answers. -/
theorem ioAndSystemFrame : Obligations.IoAndSystemFrame := by
  rintro i rn s t (rfl | rfl | rfl | rfl) h
  · rcases (exec_next h).in_cases with ⟨n, v, rest, hn, rfl⟩ | ⟨k, rest, rfl⟩
    · exact ⟨fun m => (em (m.val = rn.toNat)).imp (⟨rfl, ·⟩) (State.reg_setReg_of_val_ne v hn), .inr (.inr rfl),
        .inr rfl, .inl rfl, .inr rfl, .inl rfl, rfl, rfl, rfl, rfl, fun _ => rfl, fun _ => rfl⟩
    · exact ⟨fun _ => .inr rfl, .inr (.inr rfl), .inr rfl, .inl rfl, .inr rfl, .inr ⟨k, _, rfl, .inl rfl, rfl⟩,
        rfl, rfl, rfl, rfl, fun _ => rfl, fun _ => rfl⟩
  · rcases (exec_next h).out_cases with ⟨v, rfl⟩ | rfl
    · exact ⟨fun _ => .inr rfl, .inr (.inr rfl), .inr rfl, .inr rfl, .inl rfl, .inl rfl,
        rfl, rfl, rfl, rfl, fun _ => rfl, fun _ => rfl⟩
    · exact ⟨fun _ => .inr rfl, .inr (.inr rfl), .inr rfl, .inr rfl, .inl rfl, .inr ⟨_, _, rfl, .inr rfl, rfl⟩,
        rfl, rfl, rfl, rfl, fun _ => rfl, fun _ => rfl⟩
  · cases h
    exact ⟨fun _ => .inr rfl, .inl rfl, .inr rfl, .inr rfl, .inr rfl, .inl rfl,
      rfl, rfl, rfl, rfl, fun _ => rfl, fun _ => rfl⟩
  · cases h
    exact ⟨fun _ => .inr rfl, .inr (.inl rfl), .inl rfl, .inr rfl, .inr rfl, .inl rfl,
      rfl, rfl, rfl, rfl, fun _ => rfl, fun _ => rfl⟩

/-- Settles O21: IN by the head of its input, after the register check of form R. -/
theorem inTakesItem : Obligations.InTakesItem :=
  ⟨fun _ => decode_of_opcode, fun _ _ hn _ _ => execIn_of_value hn, fun _ _ _ => execIn_of_malformed,
    fun _ _ h => formR_invalid (Nat.not_lt.2 h)⟩

/-- Settles O22: the same equations on the state inside the step, before and after the environment delivers; the flag is clear,
so the halt test leaves what IN answered. -/
theorem inWaitsForAnItem : Obligations.InWaitsForAnItem := by
  refine ⟨fun _ _ => execIn_of_nil, fun s rn hn hrun hflag hb hi hin =>
    ⟨?waits, insideStep_eq s, fun v rest => ?value, fun rest => ?malformed⟩⟩
  case waits =>
    have hwait : exec (.inp rn) (insideStep s) = .fault .inputExhausted := execIn_of_nil hn hin
    rw [step_of_decode hrun hb hi, hwait, afterHandler]
  case value => exact step_of_exec_next hrun hb hi (execIn_of_value hn (insideStep_deliver_input hin _)) hflag
  case malformed => exact step_of_exec_next hrun hb hi (execIn_of_malformed hn (insideStep_deliver_input hin _)) hflag

/-- Settles O23: form R, whose valid register is read and pushed. -/
theorem outAppendsRecord : Obligations.OutAppendsRecord :=
  ⟨fun _ => decode_of_opcode, fun _ _ => formR_valid, fun _ _ h => formR_invalid (Nat.not_lt.2 h)⟩

/-- Settles O24: opcode 0 selects NOP, whose one write is `last`. -/
theorem nopClearsLast : Obligations.NopClearsLast :=
  ⟨fun _ => decode_of_opcode, fun _ => rfl⟩

/-- Settles O25: the step runs HALT in the state inside the step, and the halt test finds the flag set. -/
theorem haltStopsCleanly : Obligations.HaltStopsCleanly := by
  refine ⟨fun _ => decode_of_opcode, fun _ => rfl, fun s hrun hb hop => ?_⟩
  calc step s
      = afterHandler (exec .halt (insideStep s)) := step_of_decode hrun hb (decode_of_opcode hop)
    _ = .next (haltTest { (insideStep s).setLast 0 with halted := true }) := rfl
    _ = .next { (insideStep s).setLast 0 with halted := true, status := .halted } :=
        congrArg Host.Outcome.next (haltTest_of_flag_set hrun rfl)

end Sys2Proof.Machine

/-! # Proofs about exceptions (60_exceptions.md)

Which fault an instruction raises is said once, as a function of the state (`handlerFault`): the register check, then the bound
or the input item (R105). The statements about single kinds are read off it, one instruction at a time. That no other pair ends
a run follows from the status of every step being legal, and that each of the 18 does from a table of programs that run. -/

namespace Sys2Proof.Machine

/-! ## The fault of a handler (R98 to R100, R105) -/

/-- The kind of the fault an instruction with valid registers raises, from its bound or its input item. -/
def accessFault (s : State) : Instr → Option FaultKind
  | .ldr _ dir | .str _ dir => if s.data.cap < dir.toNat + 4 then some .outOfBounds else none
  | .jmp dir | .jz dir | .jn dir => if s.code.cap < dir.toNat + 4 then some .outOfBounds else none
  | .inp _ => if s.input.head? = some .malformed then some .malformedInput else none
  | _ => none

/-- The kind of the fault an instruction raises, its registers checked first (R105, D7). -/
def handlerFault (s : State) (i : Instr) : Option FaultKind :=
  if i.wellFormed = true then accessFault s i else some .invalidOperand

theorem valid_eq_true_iff {r : RegField} : RegField.valid r = true ↔ r.toNat < 8 := decide_eq_true_iff

theorem valid_eq_false_iff {r : RegField} : RegField.valid r = false ↔ 8 ≤ r.toNat :=
  decide_eq_false_iff_not.trans Nat.not_lt

theorem valid_of_val_eq {r : RegField} {n : Fin 8} (h : n.val = r.toNat) : RegField.valid r = true :=
  valid_eq_true_iff.2 (h ▸ n.isLt)

/-- An instruction run from Running ends in the fault `handlerFault` gives, under its own name, and in no other. -/
theorem Ran.faulted_iff {s t : State} {i : Instr} (h : Ran s i t) (hrun : s.status = .running) (k : FaultKind)
    (op : OpName) : t.status = .faulted k op ↔ handlerFault s i = some k ∧ failName i = some op := by
  cases h with
  | badOperand i op hi ho => simp [handlerFault, hi, ho]
  | nop | halt => simp [hrun, failName]
  | add rn rm n m hn hm | sub rn rm n m hn hm | and rn rm n m hn hm | or rn rm n m hn hm | xor rn rm n m hn hm
  | mov rn rm n m hn hm =>
    simp [hrun, handlerFault, Instr.wellFormed, valid_of_val_eq hn, valid_of_val_eq hm, accessFault]
  | not rn n hn | out rn n hn =>
    simp [hrun, handlerFault, Instr.wellFormed, valid_of_val_eq hn, accessFault]
  | ldr rn dir n hn hb | str rn dir n hn hb =>
    simp [hrun, handlerFault, Instr.wellFormed, valid_of_val_eq hn, accessFault, Nat.not_lt.2 hb]
  | ldrOut rn dir hn hb | strOut rn dir hn hb =>
    simp [handlerFault, Instr.wellFormed, valid_eq_true_iff.2 hn, accessFault, hb, failName]
  | jmp dir hb | jzTaken dir hb | jzNot dir hb | jnTaken dir hb | jnNot dir hb =>
    simp [hrun, handlerFault, Instr.wellFormed, accessFault, Nat.not_lt.2 hb]
  | jmpOut dir hb | jzOut dir hb | jnOut dir hb =>
    simp [handlerFault, Instr.wellFormed, accessFault, hb, failName]
  | inp rn n v rest hn hi =>
    simp [hrun, handlerFault, Instr.wellFormed, valid_of_val_eq hn, accessFault, hi]
  | inpMalformed rn rest hn hi =>
    simp [handlerFault, Instr.wellFormed, valid_eq_true_iff.2 hn, accessFault, hi, failName]

theorem handlerFault_insideStep (s : State) (i : Instr) : handlerFault (insideStep s) i = handlerFault s i := rfl

/-- The halt test neither makes nor removes a fault (R66, R71). -/
theorem haltTest_faulted_iff (s : State) (k : FaultKind) (op : OpName) :
    (haltTest s).status = .faulted k op ↔ s.status = .faulted k op := by
  constructor
  · intro h
    rwa [haltTest_eq_self_of_faulted h] at h
  · intro h
    rw [haltTest_status_of_ne_running (by simp [h]), h]

/-- After a fetch in bounds, a step ends in the fault of the handler, under the instruction's name. -/
theorem step_faulted_iff {s t : State} {i : Instr} (hb : s.pc + 4 ≤ s.code.cap)
    (hi : decode (s.code.word s.pc) = .ok i) (h : step s = .next t) (k : FaultKind) (op : OpName) :
    t.status = .faulted k op ↔ some op = failName i ∧ handlerFault s i = some k := by
  obtain ⟨hrun, u, hran, rfl⟩ := step_next_ran_of_decode hb hi h
  rw [haltTest_faulted_iff, hran.faulted_iff hrun, handlerFault_insideStep, and_comm, eq_comm (a := some op)]

/-! ## One kind at a time -/

/-- A kind other than InvalidOperand is raised with the registers valid (R105, D7). -/
theorem handlerFault_eq_some_iff {k : FaultKind} (hk : k ≠ .invalidOperand) (s : State) (i : Instr) :
    handlerFault s i = some k ↔ i.wellFormed = true ∧ accessFault s i = some k := by
  cases hi : i.wellFormed <;> simp [handlerFault, hi, hk.symm]

/-- Only the register check raises InvalidOperand (R99). -/
theorem accessFault_ne_invalidOperand (s : State) (i : Instr) : accessFault s i ≠ some .invalidOperand := by
  cases i <;> simp [accessFault]

theorem handlerFault_eq_invalidOperand_iff (s : State) (i : Instr) :
    handlerFault s i = some .invalidOperand ↔ i.wellFormed = false := by
  cases hi : i.wellFormed <;> simp [handlerFault, hi, accessFault_ne_invalidOperand]

/-- After a fetch out of bounds, a step ends in the fault of the fetch (R70). -/
theorem eq_raiseFault_of_fetch_out {s t : State} (hout : s.code.cap < s.pc + 4) (h : step s = .next t) :
    t = s.raiseFault .outOfBounds .fetch :=
  Host.Outcome.next.inj (h.symm.trans (step_of_fetch_out (step_next_ran h).1 hout))

/-- Settles O33: by `step_faulted_iff` after a fetch in bounds, one instruction with a bound at a time, and by the fetch's own
fault otherwise. -/
theorem outOfBoundsExactly : Obligations.OutOfBoundsExactly := by
  intro s t op h
  by_cases hb : s.pc + 4 ≤ s.code.cap
  · obtain ⟨i, hi⟩ := decode_total (s.code.word s.pc)
    rw [step_faulted_iff hb hi h, handlerFault_eq_some_iff (k := .outOfBounds) nofun]
    simp only [hi, hb, Nat.not_lt.2 hb, and_false, false_or, true_and, Except.ok.injEq]
    cases i with
    | ldr rn dir | str rn dir =>
      simp [accessFault, failName, Instr.wellFormed, valid_eq_true_iff, Nat.lt_succ_iff]
    | jmp dir | jz dir | jn dir => simp [accessFault, failName, Instr.wellFormed]
    | _ => simp [accessFault]
  · have hout := Nat.not_le.1 hb
    rw [eq_raiseFault_of_fetch_out hout h]
    simp [hout, hb, eq_comm]

/-- Settles O35: by `step_faulted_iff`; IN alone looks at an item, and a failed fetch has another kind. -/
theorem malformedInputExactly : Obligations.MalformedInputExactly := by
  intro s t op h
  by_cases hb : s.pc + 4 ≤ s.code.cap
  · obtain ⟨i, hi⟩ := decode_total (s.code.word s.pc)
    rw [step_faulted_iff hb hi h, handlerFault_eq_some_iff (k := .malformedInput) nofun]
    simp only [hi, hb, true_and, Except.ok.injEq]
    cases i with
    | inp rn =>
      simp [accessFault, failName, Instr.wellFormed, valid_eq_true_iff, Nat.lt_succ_iff, List.head?_eq_some_iff]
    | _ => simp [accessFault]
  · rw [eq_raiseFault_of_fetch_out (Nat.not_le.1 hb) h]
    simp [hb]

/-- An instruction with a bad register field has a name to report it under (R99, R103). -/
theorem exists_failName_of_not_wellFormed {i : Instr} (hi : i.wellFormed = false) : ∃ op, failName i = some op := by
  cases i with
  | nop | halt => cases hi
  | _ => exact ⟨_, rfl⟩

/-- Every ill-formed instruction answers, IN on an exhausted input too, since its register is checked first (R99, D7). -/
theorem exec_invalidOperand_iff {i : Instr} {s : State} (hrun : s.status = .running) :
    (∃ t op, exec i s = .next t ∧ t.status = .faulted .invalidOperand op) ↔ i.wellFormed = false := by
  constructor
  · rintro ⟨t, op, h, hst⟩
    exact (handlerFault_eq_invalidOperand_iff s i).1 (((exec_next h).faulted_iff hrun _ op).1 hst).1
  · intro hi
    obtain ⟨op, hop⟩ := exists_failName_of_not_wellFormed hi
    rcases exec_cases i s with ⟨t, ht⟩ | ⟨-, -, rn, rfl, hn⟩
    · exact ⟨t, op, ht, ((exec_next ht).faulted_iff hrun _ op).2 ⟨(handlerFault_eq_invalidOperand_iff s i).2 hi, hop⟩⟩
    · rw [Instr.wellFormed, valid_eq_true_iff.2 hn] at hi
      cases hi

/-- Settles O34: InvalidOperand is raised exactly by the ill-formed instructions, read per operand form. -/
theorem invalidOperandExactly : Obligations.InvalidOperandExactly := by
  intro i s hrun
  rw [exec_invalidOperand_iff hrun]
  cases i with
  | nop | jmp | jz | jn | halt => simp [Instr.wellFormed]
  | not rn | ldr rn | str rn | inp rn | out rn => exact valid_eq_false_iff
  | add rn rm | sub rn rm | and rn rm | or rn rm | xor rn rm | mov rn rm =>
    simp only [Instr.wellFormed, Bool.and_eq_false_iff, valid_eq_false_iff]

/-! ## The fault values a run can end in (R103) -/

/-- What holds at the start of a run and is kept by every step holds of the terminal state (R67, R68). -/
theorem runLoop_terminal_induct {P : State → Prop} (hstep : ∀ s t, P s → step s = .next t → P t) {fuel : Nat}
    {s t : State} (hs : P s) (h : runLoop fuel s = .terminal t) : P t := by
  have hend {s : State} {fuel : Nat} (hs : P s) (h : runLoop fuel s = .terminal t) (hrun : s.status ≠ .running) : P t :=
    RunEnd.terminal.inj ((runLoop_of_terminal hrun fuel).symm.trans h) ▸ hs
  induction fuel generalizing s with
  | zero =>
    by_cases hrun : s.status = .running
    · cases (runLoop_zero_of_running hrun).symm.trans h
    · exact hend hs h hrun
  | succ fuel ih =>
    by_cases hrun : s.status = .running
    · rcases step_running_cases hrun with ⟨u, hu⟩ | ⟨hwait, -⟩
      · exact ih (hstep s u hs hu) ((runLoop_succ_of_next hu fuel).symm.trans h)
      · cases (runLoop_succ_of_wait hrun hwait fuel).symm.trans h
    · exact hend hs h hrun

/-- Every step, from whatever state, ends in a status a run can have (R18, R103). -/
theorem step_status_legal {s t : State} (h : step s = .next t) : t.status.legal = true := by
  obtain ⟨hrun, ⟨-, rfl⟩ | ⟨-, i, u, -, hran, rfl⟩⟩ := step_next_ran h
  · rfl
  · rcases hran.status_cases with hst | ⟨k, op, hst, hlegal, -⟩
    · rw [haltTest_status_of_running (hst.trans hrun)]
      split <;> rfl
    · rw [haltTest_status_of_ne_running (by simp [hst]), hst]
      exact hlegal

theorem boot_status_running {words : List Word} {items : List InItem} {s t : State} (h : boot words items s = .ok t) :
    t.status = .running := by
  unfold boot loadProgram at h
  split_ifs at h
  cases h
  rfl

/-- A program and its input, with the fault its run is to end in. -/
structure FaultRun where
  kind : FaultKind
  op : OpName
  program : List Instr
  items : List InItem

/-- The status in which the run of a booted program ends, within `fuel` steps. -/
def endStatus (program : List Instr) (items : List InItem) (fuel : Nat) : Option Status :=
  match boot (program.map encode) items State.reset with
  | .error _ => none
  | .ok s =>
    match runLoop fuel s with
    | .terminal t => some t.status
    | _ => none

/-- One run for each of the 18 pairs: a single instruction, with a bad register, an address or a target one past the last in
bounds, or a malformed item; for the failed fetch a jump to the last word of CODE, where a NOP runs off its end (R70, R103). -/
def faultRuns : List FaultRun :=
  [⟨.outOfBounds, .fetch, [.jmp 28], []⟩,
    ⟨.outOfBounds, .ldr, [.ldr 0 29], []⟩,
    ⟨.outOfBounds, .str, [.str 0 29], []⟩,
    ⟨.outOfBounds, .jmp, [.jmp 29], []⟩,
    ⟨.outOfBounds, .jz, [.jz 29], []⟩,
    ⟨.outOfBounds, .jn, [.jn 29], []⟩,
    ⟨.invalidOperand, .add, [.add 8 0], []⟩,
    ⟨.invalidOperand, .sub, [.sub 0 8], []⟩,
    ⟨.invalidOperand, .and, [.and 8 0], []⟩,
    ⟨.invalidOperand, .or, [.or 0 8], []⟩,
    ⟨.invalidOperand, .xor, [.xor 8 0], []⟩,
    ⟨.invalidOperand, .not, [.not 8], []⟩,
    ⟨.invalidOperand, .mov, [.mov 0 8], []⟩,
    ⟨.invalidOperand, .ldr, [.ldr 8 0], []⟩,
    ⟨.invalidOperand, .str, [.str 8 0], []⟩,
    ⟨.invalidOperand, .inp, [.inp 8], []⟩,
    ⟨.invalidOperand, .out, [.out 8], []⟩,
    ⟨.malformedInput, .inp, [.inp 0], [.malformed]⟩]

/-- Each run of the table ends in its fault; the one that reaches a failed fetch takes the most steps, three. -/
theorem endStatus_faultRuns :
    ∀ r ∈ faultRuns, endStatus r.program r.items 3 = some (.faulted r.kind r.op) := by decide

theorem exists_run_of_endStatus {program : List Instr} {items : List InItem} {fuel : Nat} {k : FaultKind} {op : OpName}
    (h : endStatus program items fuel = some (.faulted k op)) :
    ∃ (words : List Word) (items : List InItem) (s t : State) (fuel : Nat),
      boot words items State.reset = .ok s ∧ runLoop fuel s = .terminal t ∧ t.status = .faulted k op := by
  unfold endStatus at h
  split at h
  · cases h
  next s hs =>
    split at h
    next t ht => exact ⟨_, _, s, t, _, hs, ht, Option.some.inj h⟩
    · cases h

/-- The legal faults are the pairs of the table. -/
theorem legalFault_iff_mem_faultRuns (k : FaultKind) (op : OpName) :
    legalFault k op = true ↔ (k, op) ∈ faultRuns.map fun r => (r.kind, r.op) := by
  cases k <;> simp [legalFault, faultRuns]

/-- Settles O36: every step's status is legal, which leaves the 18 pairs, and the table has a run for each. -/
theorem reachableFaultValues : Obligations.ReachableFaultValues := by
  intro k op
  refine Iff.trans ⟨?_, ?_⟩ (legalFault_iff_mem_faultRuns k op)
  · rintro ⟨words, items, s, t, fuel, hboot, hend, hst⟩
    have hlegal : t.status.legal = true :=
      runLoop_terminal_induct (P := fun s => s.status.legal = true) (fun _ _ _ => step_status_legal)
        (by rw [boot_status_running hboot]; rfl) hend
    rwa [hst] at hlegal
  · intro hlegal
    obtain ⟨r, hr, hpair⟩ := List.mem_map.1 ((legalFault_iff_mem_faultRuns k op).1 hlegal)
    cases hpair
    exact exists_run_of_endStatus (endStatus_faultRuns r hr)

end Sys2Proof.Machine

/-! # Proofs about reset, the loader and the boot order (70_reset_and_hazards.md)

The words the loader stores are read off its recursion: a word is stored before the words after it, and these leave every byte
below them. Boot is then one equation, the loaded reset state. -/

namespace Sys2Proof.Machine

/-! ## A Running machine steps (R121) -/

/-- Settles O30: by `step_running_cases`, by fetch in or out of bounds and by instruction. -/
theorem runningMachineSteps : Obligations.RunningMachineSteps := fun _ => step_running_cases

/-! ## Reset (R113, R114) -/

theorem resetWith_reg (cfg : Config) (items : List InItem) (n : Fin 8) : (State.resetWith cfg items).reg n = 0 :=
  Vector.getElem_replicate n.isLt

/-- Settles O52: the registers by `resetWith_reg`; every other element is written by `State.resetWith` itself. -/
theorem hostResetForgets : Obligations.HostResetForgets := fun _ items =>
  ⟨resetWith_reg _ items, rfl, rfl, rfl, rfl, rfl, fun _ => rfl, fun _ => rfl, rfl, rfl, rfl, rfl⟩

/-- The reset state is what the host's reset of it, with no item given, makes of it. -/
theorem hostReset_reset : hostReset State.reset [] = State.reset := rfl

/-- Settles O51: the host's reset of the reset state, whose capacities are those of the reference configuration. -/
theorem resetState : Obligations.ResetState := by
  obtain ⟨hreg, hpc, hlast, hhalted, hstatus, hmbr, hcode, hdata, -, -, hinput, houtput⟩ :=
    hostReset_reset ▸ hostResetForgets State.reset []
  exact ⟨hreg, hpc, hlast, hhalted, hstatus, hmbr, rfl, rfl, hcode, hdata, hinput, houtput⟩

/-! ## The words the loader stores (R116) -/

/-- The loader stores nothing from the end of the words on. -/
theorem storeWords_byte_above (m : Memory) (a b : Nat) (ws : List Word) (h : a + 4 * ws.length ≤ b) :
    (storeWords m a ws).byte b = m.byte b := by
  induction ws generalizing m a with
  | nil => rfl
  | cons w ws ih =>
    rw [List.length_cons] at h
    rw [storeWords, ih _ _ (by omega), Memory.byte_setWord_outside _ _ (by omega)]

/-- A word that lies below the address the loader starts from is as before. -/
theorem storeWords_word_below (m : Memory) (a b : Nat) (ws : List Word) (h : b + 4 ≤ a) :
    (storeWords m a ws).word b = m.word b := by
  simp (disch := omega) only [Memory.word, storeWords_byte_below]

/-- Word `i` of the program stands `4 * i` bytes after the address the loader starts from. -/
theorem storeWords_word (m : Memory) (a : Nat) (ws : List Word) (i : Nat) (h : i < ws.length) :
    (storeWords m a ws).word (a + 4 * i) = ws[i] := by
  induction ws generalizing m a i with
  | nil => exact absurd h (Nat.not_lt_zero i)
  | cons w ws ih =>
    cases i with
    | zero => exact (storeWords_word_below _ _ a ws le_rfl).trans (m.word_setWord_same a w)
    | succ i =>
      have hnext : a + 4 * (i + 1) = a + 4 + 4 * i := by omega
      rw [hnext]
      exact ih (m.setWord a w) (a + 4) i (Nat.lt_of_succ_lt_succ h)

/-- A program that fits reads back word by word from address 0. -/
theorem storeWords_readWord (m : Memory) (ws : List Word) (hfit : 4 * ws.length ≤ m.cap) (i : Nat)
    (h : i < ws.length) : (storeWords m 0 ws).readWord ((4 * i : Nat) : Int) = .ok ws[i] := by
  have hword := storeWords_word m 0 ws i h
  rw [Nat.zero_add] at hword
  rw [Memory.readWord_of_inBounds (by rw [storeWords_cap]; omega), Int.toNat_natCast, hword]

/-! ## The loader and the boot order (R116, R118) -/

/-- The state with the words in CODE from address 0 on (R116). -/
def State.load (s : State) (words : List Word) : State := { s with code := storeWords s.code 0 words }

theorem loadProgram_of_fits {words : List Word} {s : State} (h : 4 * words.length ≤ s.code.cap) :
    loadProgram words s = .ok (0, s.load words) :=
  if_neg (Nat.not_lt.2 h)

theorem loadProgram_of_too_long {words : List Word} {s : State} (h : s.code.cap < 4 * words.length) :
    loadProgram words s = .error .capacityExceeded :=
  if_pos h

/-- Settles O53: the two answers of the loader, the stored one read word by word and byte by byte. -/
theorem loaderStoresProgram : Obligations.LoaderStoresProgram := fun words s =>
  ⟨loadProgram_of_too_long, fun hfit =>
    ⟨s.load words, loadProgram_of_fits hfit, rfl, storeWords_cap s.code 0 words,
      storeWords_readWord s.code words hfit,
      fun b hb => storeWords_byte_above s.code 0 b words (by omega)⟩⟩

/-- Boot with words that fit: `pc` is 0 at reset already, so the start address changes nothing (R113, R118, D22). -/
theorem boot_of_fits {words : List Word} {items : List InItem} {s : State} (h : 4 * words.length ≤ s.code.cap) :
    boot words items s = .ok ((hostReset s items).load words) := by
  rw [boot, loadProgram_of_fits (s := hostReset s items) h]
  rfl

theorem boot_of_too_long {words : List Word} {items : List InItem} {s : State} (h : s.code.cap < 4 * words.length) :
    boot words items s = .error .capacityExceeded := by
  rw [boot, loadProgram_of_too_long (s := hostReset s items) h]

/-- Loading a program that fits keeps the invariant: CODE keeps its capacity and stays canonical. -/
theorem State.Inv.load {s : State} (hinv : s.Inv) {words : List Word} (hfit : 4 * words.length ≤ s.code.cap) :
    (s.load words).Inv where
  pc_le := hinv.pc_le.trans_eq (storeWords_cap _ _ _).symm
  halted_iff := hinv.halted_iff
  status_legal := hinv.status_legal
  codeCap_le := (storeWords_cap _ _ _).trans_le hinv.codeCap_le
  dataCap_le := hinv.dataCap_le
  code_wf := storeWords_wf _ _ _ (by omega) hinv.code_wf
  data_wf := hinv.data_wf

/-- Settles O54: boot gives the loaded reset state, whose elements but CODE are those of the reset (R113). -/
theorem bootStartsRun : Obligations.BootStartsRun := fun words items s =>
  ⟨boot_of_too_long, fun hfit hcode hdata =>
    ⟨(hostReset s items).load words, boot_of_fits hfit, (invariantAtReset.2 s items hcode hdata).load hfit,
      rfl, rfl, rfl, rfl, storeWords_readWord (hostReset s items).code words hfit⟩⟩

end Sys2Proof.Machine
